-- ==== Sys2Proof/Word.lean ====
section
/-!
DEFINITION. The widths of CORE: the 8-bit message byte, the 32-bit hash word, the 64-bit bit-length counter,
the 10-bit command word of CMD10 and the 160-bit digest port (00_scope.md rules R8, R9; 30_encoding.md rule R70).
Everything in CORE is unsigned (R10), so a plain bit vector is the whole type.
-/

namespace Sys2Proof

/-- One message byte, one entry of `BUF` (R8, R23). -/
abbrev Byte := BitVec 8

/-- One 32-bit word of the hash state, the schedule or the working variables (R8 "WORD"). Its `+` is the
addition modulo 2^32 of R99, its `&&&`, `|||`, `^^^`, `~~~` the bitwise operations of R101. -/
abbrev Word := BitVec 32

/-- A 64-bit quantity: `LEN` and `FC` (R22, R33). Its `+` is addition modulo 2^64 (R123). -/
abbrev Dword := BitVec 64

/-- A command word: `cmd[9:8] = op`, `cmd[7:0] = data` (R70). -/
abbrev CmdWord := BitVec 10

/-- What the digest port shows (R26, R148). -/
abbrev Digest := BitVec 160

/-- A block of exactly 64 bytes (R8 "BLOCK"). -/
abbrev Block := Vector Byte 64

end Sys2Proof
end

