-- ==== Sys2Proof/Syntax.lean ====
section
/-!
DEFINITION. The commands of CMD10, version 1: one constructor per row of the opcode table (30_encoding.md rules
R72, R76). `Compress` has no encoding (R90) and is no command; `ABSORB` and `HASH` are pseudo-operations of the
assembler (R79, R80) and stand in Machine/Asm.lean.
-/

namespace Sys2Proof

/-- A decoded command (R76). INIT, FINAL and the reserved operation carry no operand: their `data` field is
ignored (R74, R75), so all 256 words of such a row are one command. -/
inductive Instr where
  /-- INIT, `op = 0b00`: the document's `initialize(context)` (R120). -/
  | init
  /-- ABSB, `op = 0b01`: absorb the one message byte `d = cmd[7:0]` (R122, R73). -/
  | absb (d : Byte)
  /-- FINAL, `op = 0b10`: the document's `finalize(context)` (R140). -/
  | final
  /-- The reserved operation, `op = 0b11`: always rejected with `E_RSVD` (R75). -/
  | reserved
  deriving DecidableEq, Repr

end Sys2Proof
end

