-- ==== Sys2Proof/WellFormed.lean ====
section
/-!
DEFINITION. Which commands are well-formed. The only operand of CMD10 is the message byte of ABSB, used as it is
(30_encoding.md rule R73), and its type `Byte` already bounds it to 0..255; the decoder is total and each of the
1024 words is a command (R76). So every term of `Instr` is a command and nothing is left for a check to refuse.
The ill-formed terms the spec does name are terms of the assembler, whose operands are unbounded numbers and text:
`ABSB` with an operand above 255, `.word` above 1023, text that is not printable ASCII (R78, R79). Their check is
`Sys2Proof.Machine.AsmItem.wellFormed`, with the refused terms in Sys2Proof/Tests/Slice0.lean.
-/

namespace Sys2Proof

/-- The well-formedness of a command: one arm per row, none of which has a check to make (R73, R74, R75, R76). -/
def Instr.wellFormed : Instr → Bool
  | .init => true
  | .absb _ => true
  | .final => true
  | .reserved => true

end Sys2Proof
end

