-- ==== Sys2Proof/Decode.lean ====
section
/-!
DEFINITION. The decoder and the encoder of CMD10 (30_encoding.md rules R70 to R77). The decoder is total on the
1024 command words (R76). What is no command word is rejected by name (`DecodeError`): the port carries exactly
ten bits (R70, R77).
-/

namespace Sys2Proof

/-- `cmd[9:8]`, the operation code (R70). -/
def opField (c : CmdWord) : BitVec 2 := c.extractLsb' 8 2

/-- `cmd[7:0]`, the data field; `cmd[7]` is bit 7 of the byte (R70, R73, R54). -/
def dataField (c : CmdWord) : Byte := c.extractLsb' 0 8

/-- `Decode(c)`, the four-way decoder of R76. -/
def decode (c : CmdWord) : Instr :=
  if opField c = 0b00#2 then .init
  else if opField c = 0b01#2 then .absb (dataField c)
  else if opField c = 0b10#2 then .final
  else .reserved

/-- Why a number is no command. -/
inductive DecodeError where
  /-- The number does not fit the ten bits of a command word (R70, R77). Raised by `decodeNat`; safe: the port
  cannot carry it. -/
  | notTenBits
  deriving DecidableEq, Repr

/-- The command word that a number stands for: ten bits, never more (R70, R77). -/
def cmdWordOfNat (n : Nat) : Except DecodeError CmdWord :=
  if n < 1024 then .ok (BitVec.ofNat 10 n) else .error .notTenBits

/-- The command a number decodes to, or the name of why it is none. -/
def decodeNat (n : Nat) : Except DecodeError Instr :=
  (cmdWordOfNat n).map decode

/-- The bits of a table row, laid out as CORE takes them: the low `nbits` bits of `w`, with every bit above
`nbits` zero. CMD10 has one word of ten bits, so there is no byte order to apply (R70). -/
def tableBits (nbits w : Nat) : Nat := w % 2 ^ nbits

/-- The command this decoder reads from the opcode table's bits `w`; `none` where they are no ten-bit word. -/
def decodeTableWord (nbits w : Nat) : Option Instr :=
  match decodeNat (tableBits nbits w) with
  | .ok i => some i
  | .error _ => none

/-- `match` of the row an instruction belongs to (R72). -/
def rowMatch : Instr → CmdWord
  | .init => 0x000#10
  | .absb _ => 0x100#10
  | .final => 0x200#10
  | .reserved => 0x300#10

/-- `mask`, the same for all four rows (R72). -/
def rowMask : CmdWord := 0x300#10

/-- The canonical word of a command: `0x000` for INIT and `0x200` for FINAL (R74), `0x100 + d` for ABSB (R122), and
for the reserved operation the row's `match`, `0x300` (R72, R75). -/
def encode (i : Instr) : CmdWord :=
  match i with
  | .absb d => 0b01#2 ++ d
  | _ => rowMatch i

end Sys2Proof
end

