-- ==== Sys2Proof/Config.lean ====
section
/-!
DEFINITION. The free values of the model: what the spec calls unspecified while CORE goes on. None has a body, so
nothing in Lean can compute one or prove a value of it, and every theorem holds whatever they are. Each is applied
to a serial number (the model's own field `State.free`, advanced at each use) and to an index that says which
register takes the value, so that no two uses are forced to agree.

CORE has no options and no variant (R7): the only parameters the spec leaves open are the four latencies of R190,
which no rule and no definition here depends on. The constants IV and K and the functions F are fixed tables, not
configuration (R7, R97, R121); they stand in Machine/Compression.lean.
-/

namespace Sys2Proof

/-- A free 32-bit value. Used for `H`, `A`..`E` and `W` where the spec leaves them unspecified (R30, R31, R36;
93_implementation_defined.md U7, U9; log entries 3 and 4). -/
opaque Config.freeWord : Nat → Nat → Word

/-- A free byte. Used for `BUF` after a reset (R36; U7; log entry 3). -/
opaque Config.freeByte : Nat → Nat → Byte

/-- A free 64-bit value. Used for `LEN` after a reset and `FC` outside FINAL (R33, R36; U7, U9; log entries 3
and 4). -/
opaque Config.freeDword : Nat → Nat → Dword

/-- A free value of the round counter, 0 to 80. Used for `T` after a reset (R32, R36; log entry 3). -/
opaque Config.freeRound : Nat → Fin 81

/-- A free position of the finalizer, one of its eleven. Used for `FSTEP` after a reset (R34, R36; log entry 3). -/
opaque Config.freePosition : Nat → Fin 11

end Sys2Proof
end

