-- ==== Sys2Proof/Machine/State.lean ====
section
/-!
DEFINITION. The state of one CORE instance, all of 10_state.md rule R20 and nothing else of the hardware, as plain
data: the Context (`H`, `LEN`, `BUF`), the phase, the sticky flag, the hidden registers of the engine and of the
finalizer, the sequencer, and two fields of the model's own: the samples the host will put on the input ports
(R28) and the serial number of the free values. Then the reasons a step can stop, and the state after reset.
-/

namespace Sys2Proof.Machine

/-- `H[0..4]`, the Hash State, in word order (R21). -/
@[ext] structure Hash where
  h0 : Word
  h1 : Word
  h2 : Word
  h3 : Word
  h4 : Word
  deriving DecidableEq, Repr

/-- `A`, `B`, `C`, `D`, `E`, the working variables (R30). -/
@[ext] structure Work where
  a : Word
  b : Word
  c : Word
  d : Word
  e : Word
  deriving DecidableEq, Repr

/-- The hidden registers of the compression engine (R30, R31, R32). -/
@[ext] structure Engine where
  /-- `A..E`. -/
  work : Work
  /-- `W[0..79]`, the message schedule. -/
  w : Vector Word 80
  /-- `T`, the round counter: 7 bits, values 0 to 80. -/
  t : Fin 81
  deriving DecidableEq, Repr

/-- `PHASE`, the state machine of the context; its binary encoding is not fixed (R27). -/
inductive Phase where
  /-- `P_UNINIT`, "Uninitialized". -/
  | uninit
  /-- `P_READY`, "Ready". -/
  | ready
  /-- `P_FINALIZED`, "Finalized". -/
  | finalized
  deriving DecidableEq, Repr

/-- `FSTEP`, the finalizer's position (R34, R152). -/
inductive FStep where
  | marker
  | zeroFill
  | lengthByte (i : Fin 8)
  | done
  deriving DecidableEq, Repr

/-- What the host drives on the input ports at one rising edge of `clk` (R28). -/
structure PortIn where
  rst : Bool
  cmdValid : Bool
  cmd : CmdWord
  deriving DecidableEq, Repr

/-- One CORE instance between two clock edges. -/
@[ext]
structure State where
  /-- `H[0..4]` (R21). -/
  h : Hash
  /-- `LEN` (R22). -/
  len : Dword
  /-- `BUF[0..63]`; entries at and above the occupancy are stale (R23). -/
  buf : Block
  /-- `PHASE` (R27). -/
  phase : Phase
  /-- `ERR`, sticky (R25). -/
  err : Bool
  /-- `A..E`, `W`, `T` (R30, R31, R32). -/
  eng : Engine
  /-- `FC`, the length FINAL captured (R33). -/
  fc : Dword
  /-- `BUSY` (R34). -/
  busy : Bool
  /-- `FSTEP` (R34). -/
  fstep : FStep
  /-- The model's own: the serial number of the next free value (log entry 2). No hardware register. -/
  free : Nat
  /-- The model's own: what the host puts on the ports at the edges to come, the next edge first; when the list is
  empty the host drives every input low (log entry 1). No hardware register, and no queue inside CORE (R188). -/
  inputs : List PortIn
  deriving DecidableEq, Repr

/-- The reasons CORE stops with a fault. There are none: "CORE never traps or hangs" (00_scope.md section 6 item 5),
it raises no exception (R160), and a command it does not execute is rejected, which is a next state with `ERR = 1`
(R162). -/
inductive Fault where
  deriving DecidableEq, Repr

/-- The reasons the model gives no meaning. -/
inductive Refusal where
  /-- An instruction rejected by name in `exec`'s arm because it has no meaning yet. Raised by no arm of this
  model; safe. -/
  | notModelled (mnemonic : String)
  /-- The host reads the digest port while `dvalid = 0`, where its value is unspecified (R149; U8: "the model lets
  the host read only when `dvalid = 1`"). Raised by `State.readDigest` only, which is no command; safe: no claim
  can rest on what the port shows then. -/
  | digestNotValid
  deriving DecidableEq, Repr

/-- The machine right after a reset with nothing driven on its ports. `PHASE`, `ERR` and `BUSY` are the spec's
(R36, R180). The spec calls every other register unspecified; the zeros, and the first position for `FSTEP`, are
the model's DESIGN CHOICE (log entry 5, unsafe), and no statement rests on one of them. -/
def State.reset : State where
  h := ⟨0, 0, 0, 0, 0⟩
  len := 0
  buf := Vector.replicate 64 0
  phase := .uninit
  err := false
  eng := ⟨⟨0, 0, 0, 0, 0⟩, Vector.replicate 80 0, 0⟩
  fc := 0
  busy := false
  fstep := .marker
  free := 0
  inputs := []

end Sys2Proof.Machine
end

