-- ==== Sys2Proof/Machine/Operands.lean ====
section
/-!
DEFINITION. Byte order and word assembly (20_memory.md rules R51 to R54), rotation (00_scope.md rule R10), and the
fields of `LEN` (10_state.md rules R22, R24). The only operand a command has is its data byte, which the decoder
hands over as it is (R73); the only address is the occupancy `j` (41_streaming.md rule R131).
-/

namespace Sys2Proof.Machine

/-- `BE32(b0, b1, b2, b3)`: the first byte is the most significant (R51). -/
def be32 (b0 b1 b2 b3 : Byte) : Word := b0 ++ b1 ++ b2 ++ b3

/-- `Ser32(w)`: `w[31:24]`, `w[23:16]`, `w[15:8]`, `w[7:0]` (R52). -/
def ser32 (w : Word) : List Byte :=
  [w.extractLsb' 24 8, w.extractLsb' 16 8, w.extractLsb' 8 8, w.extractLsb' 0 8]

/-- Byte `i` of `Ser64(v)`: `v[63-8i : 56-8i]` (R53). -/
def ser64Byte (v : Dword) (i : Fin 8) : Byte := v.extractLsb' (56 - 8 * i.val) 8

/-- `Ser64(v)`, most significant byte first (R53). -/
def ser64 (v : Dword) : List Byte := List.ofFn (ser64Byte v)

/-- `ROTL(x, n) = ((x << n) mod 2^32) OR (x >> (32 - n))` for `0 < n < 32` (R10, R100). -/
def rotl (x : Word) (n : Nat) : Word := (x <<< n) ||| (x >>> (32 - n))

/-- The occupancy `j = LEN[8:3]` as an index of `BUF`: a six-bit field, so always 0 to 63 (R24, R50). -/
def occupancy (len : Dword) : Fin 64 := (len.extractLsb' 3 6).toFin

/-- `LEN_HI = LEN[63:32]` (R22). -/
def lenHi (len : Dword) : Word := len.extractLsb' 32 32

/-- `LEN_LO = LEN[31:0]` (R22). -/
def lenLo (len : Dword) : Word := len.extractLsb' 0 32

end Sys2Proof.Machine
end

