-- ==== Sys2Proof/Machine/Compression.lean ====
section
/-!
DEFINITION. The compression step (40_compression.md): first the pure function `Compress` of rule R90, then the engine
that computes it on the hidden registers as LOAD, eighty ROUNDs and FOLD (R103), which is what a command runs, then
the sixteen-word window of R106 (a). The constants IV, F and K are the SHA-1 values the spec supplies from general
knowledge and prints in R96, R97 and R121 (93_implementation_defined.md G1 to G3).
-/

namespace Sys2Proof.Machine

/-- The initialization vector (R121). -/
def iv : Hash := ⟨0x67452301, 0xefcdab89, 0x98badcfe, 0x10325476, 0xc3d2e1f0⟩

/-- `choose`, the function of stage 0 (R96). -/
def choose (b c d : Word) : Word := (b &&& c) ||| (~~~b &&& d)

/-- `parity`, the function of stages 1 and 3 (R96). -/
def parity (b c d : Word) : Word := b ^^^ c ^^^ d

/-- `majority`, the function of stage 2 (R96). -/
def majority (b c d : Word) : Word := (b &&& c) ||| (b &&& d) ||| (c &&& d)

/-- The mixing function `F(t, b, c, d)`, chosen by the stage `t div 20` (R96, R105). -/
def mix (t : Nat) (b c d : Word) : Word :=
  match t / 20 with
  | 0 => choose b c d
  | 1 => parity b c d
  | 2 => majority b c d
  | _ => parity b c d

/-- The additive constant `K(t)`, chosen by the stage `t div 20` (R97, R105). -/
def roundConst (t : Nat) : Word :=
  match t / 20 with
  | 0 => 0x5a827999
  | 1 => 0x6ed9eba1
  | 2 => 0x8f1bbcdc
  | _ => 0xca62c1d6

/-- Word `i` of `Parse(blk)`: `BE32` of the bytes `4i` to `4i+3` (R92). -/
def parseWord (blk : Block) (i : Fin 16) : Word :=
  be32 blk[4 * i.val] blk[4 * i.val + 1] blk[4 * i.val + 2] blk[4 * i.val + 3]

/-- `Parse(blk)` (R92). -/
def parse (blk : Block) : Vector Word 16 := Vector.ofFn (parseWord blk)

/-- The schedule recurrence at `t`, for `16 <= t < 80` (R93). -/
def scheduleWord (w : Vector Word 80) (t : Nat) (h : 16 ≤ t ∧ t < 80) : Word :=
  rotl (w[t - 3] ^^^ w[t - 8] ^^^ w[t - 14] ^^^ w[t - 16]) 1

/-- `W[t] <-` the recurrence when `16 <= t < 80`; the sixteen parsed words stay (R93, R103). -/
def expandAt (w : Vector Word 80) (t : Nat) : Vector Word 80 :=
  if h : 16 ≤ t ∧ t < 80 then w.set t (scheduleWord w t h) else w

/-- `expandAt` for `n` indices from `t` on, in increasing order (R93). -/
def expandFrom : Nat → Nat → Vector Word 80 → Vector Word 80
  | 0, _, w => w
  | n + 1, t, w => expandFrom n (t + 1) (expandAt w t)

/-- The sixteen parsed words at the front of the eighty; what stands behind them is written before it is read
(R93, R103), so `rest` never matters. -/
def placeParsed (blk : Block) (rest : Vector Word 80) : Vector Word 80 :=
  Vector.ofFn fun i => if h : i.val < 16 then parseWord blk ⟨i.val, h⟩ else rest[i.val]

/-- The whole schedule `w[0..79]` of a block: `Parse`, then `Expand` (R92, R93). -/
def schedule (blk : Block) : Vector Word 80 :=
  expandFrom 64 16 (placeParsed blk (Vector.replicate 80 0))

/-- `TEMP` of a round (R95). -/
def roundTemp (t : Nat) (x : Work) (wt : Word) : Word :=
  rotl x.a 5 + mix t x.b x.c x.d + x.e + wt + roundConst t

/-- `Round(t)` as a simultaneous update of the five working variables (R95). -/
def workRound (t : Nat) (x : Work) (wt : Word) : Work :=
  ⟨roundTemp t x wt, x.a, rotl x.b 30, x.c, x.d⟩

/-- The rounds `0 .. n-1` over a schedule, in increasing order (R95). -/
def roundsTo (w : Vector Word 80) : (n : Nat) → n ≤ 80 → Work → Work
  | 0, _, x => x
  | n + 1, h, x => workRound n (roundsTo w n (by omega) x) w[n]

/-- The working variables at the start of a step, from the input state (R94). -/
def loadWork (h : Hash) : Work := ⟨h.h0, h.h1, h.h2, h.h3, h.h4⟩

/-- `Fold`: each working variable added to its word, modulo 2^32 (R98). -/
def fold (h : Hash) (x : Work) : Hash :=
  ⟨h.h0 + x.a, h.h1 + x.b, h.h2 + x.c, h.h3 + x.d, h.h4 + x.e⟩

/-- `Compress(h, blk)`, the pure function of R90. Irreducible, as are `Engine.run` and `State.runFinalizer`: no proof
wants its eighty rounds unrolled unasked (`rw [compress]` still opens it, and the kernel still computes it). -/
@[irreducible] def compress (h : Hash) (blk : Block) : Hash :=
  fold h (roundsTo (schedule blk) 80 (Nat.le_refl 80) (loadWork h))

/-- Micro-step LOAD: `W[0..15] <- Parse(BUF)`, `A..E <- H`, `T <- 0`; `W[16..79]` keep what they held (R103). -/
def Engine.load (h : Hash) (blk : Block) (g : Engine) : Engine :=
  ⟨loadWork h, placeParsed blk g.w, 0⟩

/-- Micro-step ROUND, while `T < 80`: `W[T]` first when `T >= 16`, then `Round(T)`, then `T <- T + 1`. At `T = 80`
there is no round left (R103, R105). -/
def Engine.round (g : Engine) : Engine :=
  if h : g.t.val < 80 then
    let w := expandAt g.w g.t.val
    ⟨workRound g.t.val g.work w[g.t.val], w, ⟨g.t.val + 1, by omega⟩⟩
  else g

/-- `n` micro-steps ROUND. -/
def Engine.rounds : Nat → Engine → Engine
  | 0, g => g
  | n + 1, g => Engine.rounds n (Engine.round g)

/-- The engine after LOAD and its eighty ROUNDs, when `T = 80` and the fold is due (R32, R103). -/
@[irreducible] def Engine.run (h : Hash) (blk : Block) (g : Engine) : Engine :=
  Engine.rounds 80 (Engine.load h blk g)

/-- One round of the sixteen-word realization: `S[t mod 16]` is replaced by `W[t]` when `t >= 16` (R106 (a)). -/
def windowRound (t : Nat) (p : Work × Vector Word 16) : Work × Vector Word 16 :=
  have m (n : Nat) : n % 16 < 16 := Nat.mod_lt n (by decide)
  let s := p.2
  let x :=
    if 16 ≤ t then
      rotl (s[(t - 3) % 16]'(m _) ^^^ s[(t - 8) % 16]'(m _) ^^^ s[(t - 14) % 16]'(m _) ^^^ s[t % 16]'(m _)) 1
    else s[t % 16]'(m _)
  (workRound t p.1 x, s.set (t % 16) x (m _))

/-- The sixteen-word realization after its first `n` rounds (R106 (a)). -/
def windowRounds : Nat → Work × Vector Word 16 → Work × Vector Word 16
  | 0, p => p
  | n + 1, p => windowRound n (windowRounds n p)

/-- `Compress` by the sixteen-word sliding window (R106 (a)). -/
@[irreducible] def compressWindow (h : Hash) (blk : Block) : Hash :=
  fold h (windowRounds 80 (loadWork h, parse blk)).1

end Sys2Proof.Machine
end

