-- ==== Sys2Proof/Machine/Ops.lean ====
section
/-!
DEFINITION. The named operations over the registers: the buffer store and the compression step on CORE's own state,
rejecting a command (what CORE has in place of taking an exception, 60_exceptions.md rule R162), the reset event
(70_reset_and_hazards.md rule R180), and what one clock edge brings in at the ports (rules R71, R185, R188).
-/

namespace Sys2Proof.Machine

/-- `BUF[j] <- d`, the store `MemWrite(j, 1, d)` (R11, R124). -/
def storeByte (buf : Block) (j : Fin 64) (d : Byte) : Block := buf.set j.val d

/-- `LEN <- (LEN + 8) mod 2^64` (R123). -/
def countByte (len : Dword) : Dword := len + 8

/-- `A..E` left unspecified: free values (R30; log entry 4). -/
def freeWork (serial : Nat) : Work :=
  ⟨Config.freeWord serial 5, Config.freeWord serial 6, Config.freeWord serial 7, Config.freeWord serial 8,
    Config.freeWord serial 9⟩

/-- `W[0..79]` left unspecified: free values (R31; log entry 4). -/
def freeSchedule (serial : Nat) : Vector Word 80 := Vector.ofFn fun i => Config.freeWord serial (10 + i.val)

/-- The engine once a compression step is over: `T` has stopped at 80 (R105), and nothing says what `A..E` and `W`
hold until the next step writes them (R30, R31, R35; U9; log entry 4). -/
def Engine.released (serial : Nat) (g : Engine) : Engine := ⟨freeWork serial, freeSchedule serial, g.t⟩

/-- Micro-step FOLD on CORE's own state, with the engine as the eighty rounds left it: `H` takes the sums, and the
engine is done (R98, R103). -/
def State.foldEngine (s : State) (g : Engine) : State :=
  { s with h := fold s.h g.work, eng := g.released s.free, free := s.free + 1 }

/-- A compression step on CORE's own state: `H <- Compress(H, BUF[0..63])` by LOAD, eighty ROUNDs and FOLD. It reads
`H` and `BUF`, writes `H` and the engine's registers, and touches neither `LEN`, `PHASE` nor `ERR` (R91, R103). -/
def State.compressStep (s : State) : State := s.foldEngine (Engine.run s.h s.buf s.eng)

/-- One byte counted and stored at the occupancy from before it (R123, R124). -/
def State.takeByte (d : Byte) (s : State) : State :=
  { s with len := countByte s.len, buf := storeByte s.buf (occupancy s.len) d }

/-- `AbsorbByte(d)`: the occupancy is taken before `LEN` is updated, and the byte stored at `BUF[63]` triggers one
compression step (R124, R125; 90_conflicts.md C7). -/
def State.absorbByte (d : Byte) (s : State) : State :=
  if (occupancy s.len).val = 63 then (s.takeByte d).compressStep else s.takeByte d

/-- What INIT does: the IV, a zero counter (so an empty buffer), `P_READY`; nothing else is written (R120). -/
def State.openMessage (s : State) : State := { s with h := iv, len := 0, phase := .ready }

/-- `BUSY = 1` while a command's writes are under way and 0 after the last of them (R34, R60). Nothing can see the
middle: a command is one transition. -/
def State.busyWhile (f : State → State) (s : State) : State :=
  { f { s with busy := true } with busy := false }

/-- The reject reasons (R161). The hardware records that some reject happened, not which. -/
inductive Reject where
  /-- A word with `op = 0b11`, in every phase. -/
  | eRsvd
  /-- ABSB or FINAL with `PHASE = P_UNINIT`. -/
  | eUninit
  /-- ABSB or FINAL with `PHASE = P_FINALIZED`. -/
  | eClosed
  deriving DecidableEq, Repr

/-- The code of a reject reason (R161). -/
def Reject.code : Reject → Nat
  | .eRsvd => 1
  | .eUninit => 2
  | .eClosed => 3

/-- The phase check of ABSB and FINAL, made before anything is written (R122, R140, R162). -/
def phaseReject : Phase → Option Reject
  | .uninit => some .eUninit
  | .ready => none
  | .finalized => some .eClosed

/-- Why a command is rejected, if it is: decode first, then the phase (R27, R161, R165 (b)). -/
def rejectReason (i : Instr) (p : Phase) : Option Reject :=
  match i with
  | .init => none
  | .absb _ => phaseReject p
  | .final => phaseReject p
  | .reserved => some .eRsvd

/-- `raise Reject(reason)`: `ERR <- 1`, and every other register keeps its value. The reason is not stored
(R162). -/
def State.reject (_reason : Reject) (s : State) : State := { s with err := true }

/-- A command that ABSB and FINAL share the guard of: rejected by the phase check, else done (R122, R140). -/
def State.inReady (s : State) (f : State → State) : State :=
  match phaseReject s.phase with
  | some r => s.reject r
  | none => s.busyWhile f

/-- The eleven positions of the finalizer, numbered (R34, R152). -/
def FStep.ofFin (p : Fin 11) : FStep :=
  if p.val = 0 then .marker
  else if p.val = 1 then .zeroFill
  else if h : p.val < 10 then .lengthByte ⟨p.val - 2, by omega⟩
  else .done

/-- `H[0..4]` left unspecified: free values (R36). -/
def freeHash (serial : Nat) : Hash :=
  ⟨Config.freeWord serial 0, Config.freeWord serial 1, Config.freeWord serial 2, Config.freeWord serial 3,
    Config.freeWord serial 4⟩

/-- The `Reset` event: `PHASE <- P_UNINIT`, `ERR <- 0`, `BUSY <- 0`, and every other register of CORE becomes
unspecified, so takes a free value (R36, R180; log entry 3). It is the same whether or not a command was in progress
(R181). It loads no IV and zeroes no counter (R182). -/
def State.resetEvent (s : State) : State where
  h := freeHash s.free
  len := Config.freeDword s.free 0
  buf := Vector.ofFn fun i => Config.freeByte s.free i.val
  phase := .uninit
  err := false
  eng := ⟨freeWork s.free, freeSchedule s.free, Config.freeRound s.free⟩
  fc := Config.freeDword s.free 1
  busy := false
  fstep := FStep.ofFin (Config.freePosition s.free)
  free := s.free + 1
  inputs := s.inputs

/-- Every input low: nothing offered, no reset (R28). -/
def PortIn.idle : PortIn := ⟨false, false, 0⟩

/-- The host offers the word `c` (R28, R185). -/
def PortIn.offer (c : CmdWord) : PortIn := ⟨false, true, c⟩

/-- The host asserts `rst` (R28, R180). -/
def PortIn.reset : PortIn := ⟨true, false, 0⟩

/-- What the ports show at the next clock edge. -/
def State.portIn (s : State) : PortIn := s.inputs.headD PortIn.idle

/-- The state once that edge is past. Only the host's list moves on. -/
def State.pastEdge (s : State) : State := { s with inputs := s.inputs.tail }

/-- Port `cmd_ready`: 1 when `BUSY = 0` and reset is not asserted (R26). -/
def State.cmdReady (s : State) : Bool := !s.busy && !s.portIn.rst

/-- What a clock edge brings. -/
inductive Edge where
  /-- `rst = 1`: the `Reset` event, whatever is offered (R165 (a), R180). -/
  | reset
  /-- A command word accepted: `cmd_valid = 1`, `cmd_ready = 1`, `rst = 0` (R71, R185). -/
  | accept (c : CmdWord)
  /-- Neither: a word on `cmd` has no effect of any kind (R71, R188). -/
  | nothing
  deriving DecidableEq, Repr

/-- Sampling the ports at the next edge (R165 (a), R185, R188). -/
def State.sample (s : State) : Edge :=
  if s.portIn.rst then .reset
  else if s.portIn.cmdValid && s.cmdReady then .accept s.portIn.cmd
  else .nothing

/-- `s` with the ten bits of a table row offered on the command port at the next edge, and CORE ready for them. A
number that is no ten-bit word can be put on no port and leaves `s` as it is. -/
def State.placeWord (s : State) (nbits w : Nat) : State :=
  match cmdWordOfNat (tableBits nbits w) with
  | .ok c => { s with busy := false, inputs := PortIn.offer c :: s.inputs }
  | .error _ => s

end Sys2Proof.Machine
end

