-- ==== Sys2Proof/Machine/Flags.lean ====
section
/-!
DEFINITION. The output ports and the digest (10_state.md rule R26; 42_finalize.md rules R147 to R149). These are the
only flags CORE has: there are no condition codes, and no arithmetic writes a flag (R26, R99). `cmd_ready` stands in
Machine/Ops.lean, since sampling an edge reads it. Reading a port changes nothing (R59): each is a function of the
state.
-/

namespace Sys2Proof.Machine

/-- Port `err`: the sticky flag (R25, R26). -/
def State.errPort (s : State) : Bool := s.err

/-- Port `dvalid`: 1 when `PHASE = P_FINALIZED` and `BUSY = 0` (R26, R149). -/
def State.dvalid (s : State) : Bool := s.phase == .finalized && !s.busy

/-- `H[0] ‖ H[1] ‖ H[2] ‖ H[3] ‖ H[4]`, with `H[0]` in `digest[159:128]` (R148). -/
def Hash.digest (h : Hash) : Digest := h.h0 ++ h.h1 ++ h.h2 ++ h.h3 ++ h.h4

/-- `digest_bytes[0..19]`: the five words in word order, each big-endian (R147). -/
def Hash.digestBytes (h : Hash) : List Byte :=
  ser32 h.h0 ++ ser32 h.h1 ++ ser32 h.h2 ++ ser32 h.h3 ++ ser32 h.h4

/-- The host's read of port `digest`: its value while `dvalid = 1`, refused by name while `dvalid = 0`, where the
port is unspecified (R148, R149, R187; log entry 7). -/
def State.readDigest (s : State) : Except Refusal Digest :=
  if s.dvalid then .ok s.h.digest else .error .digestNotValid

end Sys2Proof.Machine
end

