-- ==== Sys2Proof/Machine/Streaming.lean ====
section
/-!
DEFINITION. INIT and ABSB (41_streaming.md), and the Context they act on as a value of its own (10_state.md rule R20),
with the document's chunk-level absorb (R126) over it.
-/

namespace Sys2Proof.Machine

/-- INIT: opens a message, in every phase (R120). -/
def execInit (s : State) : Host.Outcome State Fault Refusal :=
  .next s.openMessage

/-- ABSB(`d`): the phase check, then `AbsorbByte(d)`; `PHASE` stays (R122). -/
def execAbsb (d : Byte) (s : State) : Host.Outcome State Fault Refusal :=
  .next (s.inReady (State.absorbByte d))

/-- The Context: "{Hash State, Bit-Length Counter, Partial-Block Buffer}" (R20). -/
@[ext] structure Context where
  h : Hash
  len : Dword
  buf : Block
  deriving DecidableEq, Repr

/-- The Context an instance holds (R20). -/
def State.ctx (s : State) : Context := ⟨s.h, s.len, s.buf⟩

/-- The Context after INIT: `BUF` is not written (R120). -/
def Context.init (c : Context) : Context := ⟨iv, 0, c.buf⟩

/-- `AbsorbByte(d)` on a Context, with `Compress` as the pure function (R91, R124). -/
def Context.absorbByte (c : Context) (d : Byte) : Context :=
  let j := occupancy c.len
  let buf := storeByte c.buf j d
  ⟨if j.val = 63 then compress c.h buf else c.h, countByte c.len, buf⟩

/-- `BUF[0..j-1]`, the bytes held, in the order they were absorbed (R23, R24). -/
def Context.heldBytes (c : Context) : List Byte := c.buf.toList.take (occupancy c.len).val

/-- A chunk absorbed one byte at a time (R79, R127). -/
def Context.absorbBytes (c : Context) (data : List Byte) : Context := data.foldl Context.absorbByte c

/-- The first 64 bytes of `data` as a block. -/
def blockOf (data : List Byte) : Block := Vector.ofFn fun i => data.getD i.val 0

/-- `BUF[j ..] <- data`, one byte after the other; a byte that would go past the 64 registers goes nowhere (R126
never has one). -/
def fillFrom (buf : Block) : Nat → List Byte → Block
  | _, [] => buf
  | j, d :: rest => fillFrom (buf.setIfInBounds j d) (j + 1) rest

/-- "Continue consuming `data` 64 bytes at a time directly": the full blocks left in the chunk, compressed without
the buffer, at most `n` of them; the bytes left over come with the hash (R126). -/
def directBlocks : Nat → List Byte → Hash → Hash × List Byte
  | 0, data, h => (h, data)
  | n + 1, data, h =>
    if 64 ≤ data.length then directBlocks n (data.drop 64) (compress h (blockOf data)) else (h, data)

/-- ABSORB(`data`), the document's chunk algorithm as one transition of the Context (R126). `i = 64 - j` bytes fill
the buffer; full blocks then bypass it; the remainder goes to its front. -/
def Context.absorbChunk (c : Context) (data : List Byte) : Context :=
  let j := (occupancy c.len).val
  let len := c.len + BitVec.ofNat 64 (8 * data.length)
  if 63 < j + data.length then
    let i := 64 - j
    let full := fillFrom c.buf j (data.take i)
    let (h, left) := directBlocks data.length (data.drop i) (compress c.h full)
    ⟨h, len, fillFrom full 0 left⟩
  else ⟨c.h, len, fillFrom c.buf j data⟩

end Sys2Proof.Machine
end

