-- ==== Sys2Proof/Machine/Finalize.lean ====
section
/-!
DEFINITION. FINAL (42_finalize.md): capture, marker, zero fill, length, `P_FINALIZED`, as the finalizer steps through
its positions (R152), all of it `AbsorbByte`.
-/

namespace Sys2Proof.Machine

/-- The exit test of the zero fill: `LEN[8:3] = 56` (R143, R152). With `LEN[2:0] = 0`, which holds after every INIT
(R22), it is the document's "total bits modulo 512 equals 448" (90_conflicts.md C8; log entry 6). -/
def fillDone (len : Dword) : Bool := (occupancy len).val == 56

/-- The position after length byte `i` (R144, R152). -/
def FStep.afterLengthByte (i : Fin 8) : FStep :=
  if h : i.val + 1 < 8 then .lengthByte ⟨i.val + 1, h⟩ else .done

/-- One step of the finalizer (R140, R152): the marker, then zeros one at a time with the test made before each
(R142, R143), then the eight bytes of the captured length (R144). -/
def State.finalizerStep (s : State) : State :=
  match s.fstep with
  | .marker => { s.absorbByte 0x80 with fstep := .zeroFill }
  | .zeroFill => if fillDone s.len then { s with fstep := .lengthByte 0 } else s.absorbByte 0x00
  | .lengthByte i => { s.absorbByte (ser64Byte s.fc i) with fstep := FStep.afterLengthByte i }
  | .done => s

/-- `n` steps of the finalizer. -/
def State.finalizerSteps : Nat → State → State
  | 0, s => s
  | n + 1, s => State.finalizerSteps n s.finalizerStep

/-- The start of FINAL: `FC <- LEN` before any padding, and the finalizer at its first position (R141, R152). -/
def State.capture (s : State) : State := { s with fc := s.len, fstep := .marker }

/-- The finalizer from the capture to its end: 1 marker, at most 63 zeros, 1 test that ends the fill and 8 length
bytes are at most 73 steps, and it stays at `done` (R141, R143, R189). -/
@[irreducible] def State.runFinalizer (s : State) : State := State.finalizerSteps 73 s.capture

/-- The end of FINAL: `P_FINALIZED`. `FC` is live only inside FINAL and nothing says what it holds after (R33, R146;
U9; log entry 4). -/
def State.closeMessage (s : State) : State :=
  { s with phase := .finalized, fc := Config.freeDword s.free 1, free := s.free + 1 }

/-- What FINAL does in `P_READY` (R140). -/
def State.finalize (s : State) : State := s.runFinalizer.closeMessage

/-- FINAL: the phase check, then capture, padding, length and `P_FINALIZED` (R140). -/
def execFinal (s : State) : Host.Outcome State Fault Refusal :=
  .next (s.inReady State.finalize)

/-- The number of zero bytes FINAL absorbs from occupancy `j0`: `(55 - j0) mod 64`, taken in `0..63` (R143). -/
def zeroCount (j0 : Nat) : Nat := (119 - j0 % 64) % 64

/-- The bytes FINAL absorbs when the captured length is `len`: `0x80`, the zeros, `Ser64(FC)` (R140, R151). -/
def paddingBytes (len : Dword) : List Byte :=
  0x80 :: (List.replicate (zeroCount (occupancy len).val) 0x00 ++ ser64 len)

/-- The padded message in closed form (R151). -/
def paddedMessage (m : List Byte) : List Byte :=
  m ++ 0x80 :: (List.replicate (zeroCount m.length) 0x00 ++ ser64 (BitVec.ofNat 64 (8 * m.length)))

/-- Block `k` of a byte stream: byte `n` stands in block `n div 64` at position `n mod 64` (R55). -/
def streamBlock (stream : List Byte) (k : Nat) : Block := Vector.ofFn fun i => stream.getD (64 * k + i.val) 0

/-- The first `n` blocks of a byte stream folded into a hash by `Compress`, in order (R55, R151). -/
def hashBlocks (h : Hash) (stream : List Byte) : Nat → Hash
  | 0 => h
  | n + 1 => compress (hashBlocks h stream n) (streamBlock stream n)

/-- The hash of a message in closed form: the IV folded through the blocks of the padded message (R151). -/
def sha1 (m : List Byte) : Hash := hashBlocks iv (paddedMessage m) ((paddedMessage m).length / 64)

end Sys2Proof.Machine
end

