-- ==== Sys2Proof/Machine/Reserved.lean ====
section
/-!
DEFINITION. The reserved operation (30_encoding.md rule R75).
-/

namespace Sys2Proof.Machine

/-- A reserved word: rejected with `E_RSVD` in every phase, so `ERR <- 1` and nothing else (R75, R162). -/
def execReserved (s : State) : Host.Outcome State Fault Refusal :=
  .next (s.reject .eRsvd)

end Sys2Proof.Machine
end

