-- ==== Sys2Proof/Machine/Dispatch.lean ====
section
/-!
DEFINITION. One arm per command (30_encoding.md rule R72).
-/

namespace Sys2Proof.Machine

def exec (i : Instr) (s : State) : Host.Outcome State Fault Refusal :=
  match i with
  | .init => Sys2Proof.Machine.execInit s
  | .absb d => Sys2Proof.Machine.execAbsb d s
  | .final => Sys2Proof.Machine.execFinal s
  | .reserved => Sys2Proof.Machine.execReserved s

end Sys2Proof.Machine
end

