-- ==== Sys2Proof/Machine/Step.lean ====
section
/-!
DEFINITION. One step of CORE: one rising edge of `clk` with everything it sets going (20_memory.md rule R60). A run
is a sequence of `Reset` and `Accept(word)` events (R180, R191); an edge that brings neither changes nothing.
-/

namespace Sys2Proof.Machine

/-- One clock edge: the reset event, or one whole command, or nothing (R60, R165, R180, R185, R188). -/
def step (s : State) : Host.Outcome State Fault Refusal :=
  match s.sample with
  | .reset => .next s.pastEdge.resetEvent
  | .accept c => exec (decode c) s.pastEdge
  | .nothing => .next s.pastEdge

/-- `s` with the table row's word offered on the command port at the next edge, in front of what the host sends
later, and CORE ready to accept it (log entry 1). -/
def State.withFetchWord (s : State) (nbits w : Nat) : State := s.placeWord nbits w

end Sys2Proof.Machine
end

