-- ==== Sys2Proof/Machine/Asm.lean ====
section
/-!
DEFINITION. The listing notation of 30_encoding.md section 5 (rules R78 to R82): what each line of a listing puts on
the ports. A listing is the spec's own notation for test benches, no part of the hardware. First the lines as terms
and what they emit, then the text of a line.
-/

namespace Sys2Proof.Machine

/-- One line of a listing (R78 to R81). Operands are as unbounded as the text is; `wellFormed` bounds them. -/
inductive AsmItem where
  /-- `INIT` -/
  | init
  /-- `ABSB <byte>` -/
  | absb (byte : Nat)
  /-- `FINAL` -/
  | final
  /-- `.word <w>` -/
  | word (w : Nat)
  /-- `ABSORB "text"` -/
  | absorbText (text : List Char)
  /-- `ABSORB b0, b1, ...` -/
  | absorbBytes (bytes : List Nat)
  /-- `ABSORB <byte> * <n>` -/
  | absorbTimes (byte n : Nat)
  /-- `HASH "text"` -/
  | hashText (text : List Char)
  /-- `HASH b0, b1, ...` -/
  | hashBytes (bytes : List Nat)
  /-- `.reset` -/
  | reset
  deriving DecidableEq, Repr

/-- Printable ASCII other than the double quote that ends the text: there are no escape sequences (R79). -/
def textChar (c : Char) : Bool := decide (32 ≤ c.toNat ∧ c.toNat ≤ 126 ∧ c.toNat ≠ 34)

/-- An operand of `ABSB`, 0 to 255 (R78). -/
def byteOperand (n : Nat) : Bool := decide (n ≤ 255)

/-- Outside these bounds a line is an assembler error, not a command (R78, R79). -/
def AsmItem.wellFormed : AsmItem → Bool
  | .init => true
  | .absb n => byteOperand n
  | .final => true
  | .word w => decide (w ≤ 1023)
  | .absorbText t => t.all textChar
  | .absorbBytes l => l.all byteOperand
  | .absorbTimes b _ => byteOperand b
  | .hashText t => t.all textChar
  | .hashBytes l => l.all byteOperand
  | .reset => true

/-- One event of a run (R180, R191). -/
inductive BusEvent where
  /-- `Reset`: `rst` asserted for one clock edge (R81). -/
  | reset
  /-- `Accept(word)`. -/
  | accept (c : CmdWord)
  deriving DecidableEq, Repr

/-- The word of `ABSB n` (R78). -/
def absbWord (n : Nat) : CmdWord := encode (.absb (BitVec.ofNat 8 n))

/-- The words of a chunk, one ABSB per byte in order (R79). -/
def chunkWords (bytes : List Nat) : List CmdWord := bytes.map absbWord

/-- `HASH`: INIT, the chunk, FINAL (R80). -/
def hashWords (bytes : List Nat) : List CmdWord := encode .init :: (chunkWords bytes ++ [encode .final])

/-- What a well-formed line emits (R78 to R81). -/
def AsmItem.emit : AsmItem → List BusEvent
  | .init => [.accept (encode .init)]
  | .absb n => [.accept (absbWord n)]
  | .final => [.accept (encode .final)]
  | .word w => [.accept (BitVec.ofNat 10 w)]
  | .absorbText t => (chunkWords (t.map Char.toNat)).map .accept
  | .absorbBytes l => (chunkWords l).map .accept
  | .absorbTimes b n => (chunkWords (List.replicate n b)).map .accept
  | .hashText t => (hashWords (t.map Char.toNat)).map .accept
  | .hashBytes l => (hashWords l).map .accept
  | .reset => [.reset]

/-- A whole listing, or `none` where a line is an assembler error (R78). -/
def assemble : List AsmItem → Option (List BusEvent)
  | [] => some []
  | i :: rest => if i.wellFormed then (assemble rest).map (i.emit ++ ·) else none

/-- What the host drives for an event (R28, R81, R185). -/
def BusEvent.portIn : BusEvent → PortIn
  | .reset => PortIn.reset
  | .accept c => PortIn.offer c

/-- Blanks between the parts of a line. -/
def isBlank (c : Char) : Bool := c == ' ' || c == '\t'

/-- A line without its leading blanks. -/
def skipBlanks (l : List Char) : List Char := l.dropWhile isBlank

/-- The value of a digit in the given base; hexadecimal letters of either case (R78; log entry 8). -/
def digitValue (base : Nat) (c : Char) : Option Nat :=
  let v :=
    if '0' ≤ c ∧ c ≤ '9' then c.toNat - '0'.toNat
    else if 'a' ≤ c ∧ c ≤ 'f' then c.toNat - 'a'.toNat + 10
    else if 'A' ≤ c ∧ c ≤ 'F' then c.toNat - 'A'.toNat + 10
    else base
  if v < base then some v else none

/-- The digits at the front of a line, as a number, with what follows them. -/
def digits (base : Nat) : List Char → Nat → Nat × List Char
  | [], acc => (acc, [])
  | c :: rest, acc =>
    match digitValue base c with
    | some v => digits base rest (base * acc + v)
    | none => (acc, c :: rest)

/-- At least one digit. -/
def digitsFrom (base : Nat) (l : List Char) : Option (Nat × List Char) :=
  match l with
  | [] => none
  | c :: _ => if (digitValue base c).isSome then some (digits base l 0) else none

/-- A number: decimal, or hexadecimal with `0x` (R78). -/
def number (l : List Char) : Option (Nat × List Char) :=
  match skipBlanks l with
  | '0' :: 'x' :: rest => digitsFrom 16 rest
  | rest => digitsFrom 10 rest

/-- Nothing but blanks and a comment is left: a `#` starts a comment that runs to the end of the line (R78). -/
def lineEnds (l : List Char) : Bool :=
  match skipBlanks l with
  | [] => true
  | c :: _ => c == '#'

/-- The double quote. -/
def quoteChar : Char := Char.ofNat 34

/-- The text up to the closing quote and what follows it. A `#` between the quotes is a character of the text
(log entry 8). -/
def quoted : List Char → Option (List Char × List Char)
  | [] => none
  | c :: rest => if c == quoteChar then some ([], rest) else (quoted rest).map fun p => (c :: p.1, p.2)

/-- The rest of a byte list after its first number: `, b1, b2, ...`; `n` bounds how many. -/
def bytesAfter : Nat → List Char → Option (List Nat)
  | 0, _ => none
  | n + 1, l =>
    if lineEnds l then some []
    else match skipBlanks l with
      | ',' :: rest =>
        match number rest with
        | some (b, rest') => (bytesAfter n rest').map (b :: ·)
        | none => none
      | _ => none

/-- The operand of `ABSORB` and `HASH` (R79, R80). -/
inductive ChunkOperand where
  | text (t : List Char)
  | bytes (l : List Nat)
  | times (b n : Nat)
  deriving DecidableEq, Repr

/-- A chunk operand that ends the line: text in quotes, a byte list (also empty), or `<byte> * <n>` (R79). -/
def chunkOperand (l : List Char) : Option ChunkOperand :=
  if lineEnds l then some (.bytes [])
  else match skipBlanks l with
    | [] => none
    | c :: rest =>
      if c == quoteChar then
        match quoted rest with
        | some (t, rest') => if lineEnds rest' then some (.text t) else none
        | none => none
      else match number (c :: rest) with
        | none => none
        | some (b, rest') =>
          match skipBlanks rest' with
          | '*' :: more =>
            match number more with
            | some (n, after) => if lineEnds after then some (.times b n) else none
            | none => none
          | _ => (bytesAfter (rest'.length + 1) rest').map fun bs => .bytes (b :: bs)

/-- A number that ends the line. -/
def lastNumber (l : List Char) : Option Nat :=
  match number l with
  | some (n, rest) => if lineEnds rest then some n else none
  | none => none

/-- What a line of a listing says: nothing, or one item (R78 to R81). -/
inductive AsmLine where
  /-- A blank line or a comment. -/
  | blank
  /-- One item. -/
  | item (i : AsmItem)
  /-- An assembler error. -/
  | error
  deriving DecidableEq, Repr

/-- The line of an item that takes no operand. -/
def bareLine (i : AsmItem) (rest : List Char) : AsmLine := if lineEnds rest then .item i else .error

/-- The line of an optional item: an error where there is none or it is ill-formed. -/
def itemLine (i : Option AsmItem) : AsmLine :=
  match i with
  | some i => if i.wellFormed then .item i else .error
  | none => .error

/-- The line `ABSORB <operand>` (R79). -/
def ChunkOperand.absorb : ChunkOperand → AsmItem
  | .text t => .absorbText t
  | .bytes l => .absorbBytes l
  | .times b n => .absorbTimes b n

/-- The line `HASH <operand>`: text or a byte list (R80). -/
def ChunkOperand.hash : ChunkOperand → Option AsmItem
  | .text t => some (.hashText t)
  | .bytes l => some (.hashBytes l)
  | .times _ _ => none

/-- A line of a listing: one command per line, mnemonics in upper case (R78). -/
def parseLine (l : List Char) : AsmLine :=
  if lineEnds l then .blank
  else
    let l := skipBlanks l
    let word := l.takeWhile fun c => !isBlank c && c != '#'
    let rest := l.drop word.length
    if word = "INIT".toList then bareLine .init rest
    else if word = "FINAL".toList then bareLine .final rest
    else if word = ".reset".toList then bareLine .reset rest
    else if word = "ABSB".toList then itemLine ((lastNumber rest).map .absb)
    else if word = ".word".toList then itemLine ((lastNumber rest).map .word)
    else if word = "ABSORB".toList then itemLine ((chunkOperand rest).map ChunkOperand.absorb)
    else if word = "HASH".toList then itemLine ((chunkOperand rest).bind ChunkOperand.hash)
    else .error

/-- A listing, line by line; `none` where a line is an error. -/
def parseListing : List (List Char) → Option (List AsmItem)
  | [] => some []
  | l :: rest =>
    match parseLine l with
    | .blank => parseListing rest
    | .item i => (parseListing rest).map (i :: ·)
    | .error => none

end Sys2Proof.Machine
end

