-- ==== Sys2Proof/Safety.lean ====
section
/-!
DEFINITION. What claims about CORE are stated in: the invariant between commands (10_state.md rule R37 (a), (d)),
what of a state the rules let anything depend on (R35), and runs of command words.
-/

namespace Sys2Proof.Machine

/-- Between commands no command is in progress (R34, R60), `LEN[2:0] = 0` once a message has been opened (R22,
R37 (a)), and `LEN mod 512 = 0` once it is closed (R37 (d)). -/
abbrev State.Inv (s : State) : Prop :=
  s.busy = false ∧ (s.phase ≠ .uninit → s.len.extractLsb' 0 3 = 0) ∧
    (s.phase = .finalized → s.len.extractLsb' 0 9 = 0)

/-- The two contexts hold the same message so far: equal `H`, equal `LEN`, equal valid bytes `BUF[0..j-1]` (R23,
R127). Stale bytes may differ. -/
abbrev Context.Agree (c d : Context) : Prop :=
  c.h = d.h ∧ c.len = d.len ∧ ∀ k : Fin 64, k < occupancy c.len → c.buf[k] = d.buf[k]

/-- Two states that agree on everything a command's result may depend on: the phase, the flag, the sequencer, the
host's samples, and, once a message has been opened, the context up to stale bytes. Hidden registers, the serial
number of free values, and in `P_UNINIT` also `H`, `LEN` and `BUF`, may differ (R23, R35, R36). -/
abbrev State.SameTo (s t : State) : Prop :=
  s.phase = t.phase ∧ s.err = t.err ∧ s.busy = t.busy ∧ s.inputs = t.inputs ∧
    (s.phase ≠ .uninit → s.ctx.Agree t.ctx)

/-- What the output ports show: `cmd_ready`, `dvalid`, `err`, and the digest where a read is allowed (R26). -/
def State.ports (s : State) : Bool × Bool × Bool × Option Digest :=
  (s.cmdReady, s.dvalid, s.errPort, s.readDigest.toOption)

/-- A host that offers the words of these commands at successive edges (R61, R185). -/
def offers (cmds : List Instr) : List PortIn := cmds.map fun i => PortIn.offer (encode i)

/-- The commands of a whole message: INIT, one ABSB per byte, FINAL (R80). -/
def messageCommands (m : List Byte) : List Instr := .init :: (m.map Instr.absb ++ [.final])

/-- The commands of a message still open: INIT, one ABSB per byte. -/
def openCommands (m : List Byte) : List Instr := .init :: m.map Instr.absb

/-- The commands executed one after the other, each completely before the next, as one transition each (R60, R61). -/
def execAll : List Instr → State → Host.Outcome State Fault Refusal
  | [], s => .next s
  | i :: rest, s =>
    match exec i s with
    | .next t => execAll rest t
    | .fault r => .fault r
    | .refused r => .refused r

/-- A step in which CORE rejects the command it accepts (R161). -/
def State.rejectsNext (s : State) : Bool :=
  match s.sample with
  | .accept c => (rejectReason (decode c) s.phase).isSome
  | _ => false

end Sys2Proof.Machine
end

