-- ==== Sys2Proof/Certificates/Slice0/Obligations.lean ====
section
/-!
DEFINITION. The statements for the provers. Each names the rule of spec/ it formalises; none rests on a free value or
on a value the model chose for reset, except where its docstring says so.
-/

open Sys2Proof Sys2Proof.Machine

/-! ## Reset and the invariant -/

/-- What R36 fixes after a reset: the phase, the flag, the sequencer and the outputs. The other registers are left
out on purpose: their reset values are the model's choice (log entry 5). -/
def Obligations.ResetLeavesTheFixedRegisters : Prop :=
  State.reset.phase = .uninit ∧ State.reset.err = false ∧ State.reset.busy = false ∧ State.reset.cmdReady = true ∧
    State.reset.dvalid = false ∧ State.reset.errPort = false ∧ State.reset.readDigest = .error .digestNotValid

/-- The invariant holds after reset. It says nothing of `LEN` in `P_UNINIT`, so it does not rest on log entry 5. -/
def Obligations.ResetMeetsTheInvariant : Prop := State.reset.Inv

/-- R37 (a), (d) and R34: between commands `BUSY = 0`; `LEN[2:0] = 0` in `P_READY` and `P_FINALIZED`; `LEN mod 512 = 0`
in `P_FINALIZED`. Every step keeps it, from every state that has it. -/
def Obligations.EveryStepKeepsTheInvariant : Prop := ∀ s t : State, s.Inv → step s = .next t → t.Inv

/-- R180, the `Reset` event: the three registers it fixes, free values in all the others (the model's form of
"unspecified", DESIGN CHOICE, log entry 3), `cmd_ready`
during and after it, and that holding `rst` for another edge changes nothing more of what it fixes. -/
def Obligations.ResetEdgeIsTheResetEvent : Prop :=
  ∀ s : State, s.portIn.rst = true →
    s.cmdReady = false ∧
    ∃ t, step s = .next t ∧ t.phase = .uninit ∧ t.err = false ∧ t.busy = false ∧ t.inputs = s.inputs.tail ∧
      (t.h = freeHash s.free ∧ t.len = Config.freeDword s.free 0 ∧
        (∀ k : Fin 64, t.buf[k] = Config.freeByte s.free k.val) ∧ t.eng.work = freeWork s.free ∧
        (∀ k : Fin 80, t.eng.w[k] = Config.freeWord s.free (10 + k.val)) ∧ t.eng.t = Config.freeRound s.free ∧
        t.fc = Config.freeDword s.free 1 ∧ t.fstep = FStep.ofFin (Config.freePosition s.free)) ∧
      (t.portIn.rst = false → t.cmdReady = true) ∧
      (t.portIn.rst = true → ∃ u, step t = .next u ∧ u.phase = t.phase ∧ u.err = t.err ∧ u.busy = t.busy)

/-- R181: a reset leads to the same `PHASE`, `ERR` and `BUSY` whatever CORE was doing. That the whole next state is the
same, `H`, `LEN`, `BUF` and the hidden registers included, is the model's choice: R36 leaves those unspecified, and the
model gives them free values that depend on the serial number alone (DESIGN CHOICE, log entries 2 and 3). -/
def Obligations.ResetForgetsWhatWasInProgress : Prop :=
  ∀ s t : State, s.portIn.rst = true → s.inputs = t.inputs → s.free = t.free → step s = step t

/-! ## A step and the handshake -/

/-- The link from a run to the commands: at an edge with `rst = 0`, `cmd_valid = 1` and `BUSY = 0`, the step is `exec`
of the decoded word on the state with that sample taken off the host's list, and nothing else changed. The second
clause is the model's own: `withFetchWord` offers a table row's word at the next edge and makes `BUSY` 0 (DESIGN
CHOICE, log entry 1), so the next step runs exactly it. -/
def Obligations.StepRunsTheDecodedCommand : Prop :=
  (∀ s : State, s.portIn.rst = false → s.portIn.cmdValid = true → s.busy = false →
    step s = exec (decode s.portIn.cmd) { s with inputs := s.inputs.tail }) ∧
  (∀ (s : State) (nbits w : Nat) (i : Instr), decodeTableWord nbits w = some i →
    step (s.withFetchWord nbits w) = exec i { s with busy := false })

/-- R71: a word is executed in a cycle with `cmd_valid = 1` and `cmd_ready = 1`; in any other cycle it has no effect:
without `rst` nothing but the host's list moves, and with or without `rst` another word makes no difference. It is
said of every state, by what the ports show, so also of an edge at which the host drives nothing. -/
def Obligations.OnlyAcceptedWordsHaveAnEffect : Prop :=
  ∀ s : State,
    s.pastEdge = { s with inputs := s.inputs.tail } ∧
    (s.portIn.cmdValid = true → s.cmdReady = true → step s = exec (decode s.portIn.cmd) s.pastEdge) ∧
    ((s.portIn.cmdValid = false ∨ s.cmdReady = false) →
      (s.portIn.rst = false → step s = .next s.pastEdge) ∧
      ∀ c : CmdWord, step { s with inputs := { s.portIn with cmd := c } :: s.inputs.tail } = step s)

/-- R171, R186: between commands CORE keeps all its state for as long as the host pauses. An edge with nothing on the
host's list, where every input is low (DESIGN CHOICE, log entry 1), changes nothing at all, and any number of edges
without an offer and without `rst`, whatever word stands on `cmd`, leave every register as it was. -/
def Obligations.PausesChangeNothing : Prop :=
  (∀ s : State, s.inputs = [] → s.portIn = ⟨false, false, 0⟩ ∧ step s = .next s) ∧
  (∀ (pause : List PortIn) (s : State) (rest : List PortIn),
    (∀ p ∈ pause, p.rst = false ∧ p.cmdValid = false) →
    Host.Core.run core pause.length { s with inputs := pause ++ rest } = .next { s with inputs := rest })

/-- R61, R191: a host that offers commands at successive edges has them executed in that order, each completely before
the next. -/
def Obligations.CommandsRunInOrder : Prop :=
  ∀ (cmds : List Instr) (s : State) (rest : List PortIn), s.busy = false →
    Host.Core.run core cmds.length { s with inputs := offers cmds ++ rest } = execAll cmds { s with inputs := rest }

/-- R160, R189: CORE never traps or hangs: every edge has a next state, `BUSY` is 0 again after it, and the host's
list has moved by one sample. -/
def Obligations.EveryStepAnswers : Prop :=
  ∀ s : State, ∃ t, step s = .next t ∧ t.inputs = s.inputs.tail ∧ (s.busy = false → t.busy = false)

/-! ## Encoding -/

/-- Eleven words written out from the spec's own decoding table (95_test_vectors.md V17). -/
def Obligations.WordsDecodeAsTheSpecLists : Prop :=
  decode 0x000 = .init ∧ decode 0x0a5 = .init ∧ decode 0x0ff = .init ∧
  decode 0x100 = .absb 0x00 ∧ decode 0x161 = .absb 0x61 ∧ decode 0x180 = .absb 0x80 ∧ decode 0x1ff = .absb 0xff ∧
  decode 0x200 = .final ∧ decode 0x2ff = .final ∧ decode 0x300 = .reserved ∧ decode 0x3ff = .reserved

/-- Decoding gives back every encoded command with its operand, and a word decodes to a command exactly when it lies
in the command's row and carries its data byte: no bit of an encoding is dropped and none is added (R72, R73, R76). -/
def Obligations.DecodeAndEncodeAgree : Prop :=
  (∀ i : Instr, i.wellFormed = true → decode (encode i) = i) ∧
  (∀ (c : CmdWord) (i : Instr),
    decode c = i ↔ (c &&& rowMask = rowMatch i ∧ ∀ d : Byte, i = .absb d → c.extractLsb' 0 8 = d)) ∧
  (∀ c : CmdWord, ∀ d : Byte, decode c = .absb d → encode (decode c) = c)

/-- R72: the rows' masks and matches, and that every word selects exactly one of the four rows. -/
def Obligations.EveryWordSelectsOneRow : Prop :=
  rowMask = 0x300 ∧ rowMatch .init = 0x000 ∧ (∀ d, rowMatch (.absb d) = 0x100) ∧ rowMatch .final = 0x200 ∧
  rowMatch .reserved = 0x300 ∧
  (∀ c : CmdWord, ∃ m ∈ [0x000#10, 0x100#10, 0x200#10, 0x300#10],
    c &&& 0x300#10 = m ∧ ∀ m' ∈ [0x000#10, 0x100#10, 0x200#10, 0x300#10], c &&& 0x300#10 = m' → m' = m) ∧
  (∀ c : CmdWord, c &&& 0x300#10 = rowMatch (decode c))

/-- R74: all 256 words of the INIT row and all 256 of the FINAL row are that command, with the canonical encodings
named, and a step on any of them is the step on the canonical word, `ERR` included. -/
def Obligations.IgnoredDataMakesNoDifference : Prop :=
  encode .init = 0x000 ∧ encode .final = 0x200 ∧
  (∀ c : CmdWord, c.toNat ≤ 0x0ff → decode c = .init) ∧
  (∀ c : CmdWord, 0x200 ≤ c.toNat → c.toNat ≤ 0x2ff → decode c = .final) ∧
  (∀ (s : State) (c : CmdWord) (rest : List PortIn), c.toNat ≤ 0x0ff →
    step { s with inputs := PortIn.offer c :: rest } = step { s with inputs := PortIn.offer 0x000 :: rest }) ∧
  (∀ (s : State) (c : CmdWord) (rest : List PortIn), 0x200 ≤ c.toNat → c.toNat ≤ 0x2ff →
    step { s with inputs := PortIn.offer c :: rest } = step { s with inputs := PortIn.offer 0x200 :: rest })

/-! ## INIT -/

/-- R120, R121: INIT completes in every phase; the five words of the IV, a zero counter and so an empty buffer,
`P_READY`, the digest withdrawn; every other register is as it was. -/
def Obligations.InitOpensAMessageInEveryPhase : Prop :=
  ∀ s : State, ∃ t, exec .init s = .next t ∧
    t = { s with
      h := ⟨0x67452301, 0xefcdab89, 0x98badcfe, 0x10325476, 0xc3d2e1f0⟩, len := 0, phase := .ready } ∧
    (occupancy t.len).val = 0 ∧ t.ctx.heldBytes = [] ∧ t.dvalid = false

/-- R59: INIT twice is INIT once; a rejected command repeated changes nothing more; FINAL after FINAL is rejected; each
ABSB in `P_READY` adds a byte. -/
def Obligations.WhatRepeatingACommandDoes : Prop :=
  (∀ s t : State, exec .init s = .next t → exec .init t = .next t) ∧
  (∀ (i : Instr) (s t : State), (rejectReason i s.phase).isSome = true → exec i s = .next t → exec i t = .next t) ∧
  (∀ s t : State, s.phase = .ready → exec .final s = .next t → exec .final t = .next { t with err := true }) ∧
  (∀ (s t u : State) (d e : Byte), s.phase = .ready → exec (.absb d) s = .next t → exec (.absb e) t = .next u →
    u.len = s.len + 16)

/-! ## ABSB -/

/-- R122 to R125: in `P_READY` ABSB completes for every byte and every occupancy `j`: the byte goes to `BUF[j]` and no
other entry changes, the counter grows by 8, and `H` is compressed with the full buffer exactly when `j` was 63; the
occupancy advances by one, from 63 to 0. `PHASE`, `ERR`, `FC` and `FSTEP` are as they were, and so is the engine when
no block is completed. -/
def Obligations.AbsbInReadyAbsorbsTheByte : Prop :=
  ∀ (s : State) (d : Byte), s.phase = .ready →
    ∃ t, exec (.absb d) s = .next t ∧
      t.len = s.len + 8 ∧
      t.buf[occupancy s.len] = d ∧ (∀ k : Fin 64, k ≠ occupancy s.len → t.buf[k] = s.buf[k]) ∧
      t.h = (if (occupancy s.len).val = 63 then compress s.h t.buf else s.h) ∧
      (occupancy t.len).val = ((occupancy s.len).val + 1) % 64 ∧
      t.phase = .ready ∧ t.err = s.err ∧ t.fc = s.fc ∧ t.fstep = s.fstep ∧ t.busy = false ∧ t.inputs = s.inputs ∧
      ((occupancy s.len).val ≠ 63 → t.eng = s.eng ∧ t.free = s.free)

/-- R123: the counter update for a byte, for a chunk of `L` bytes, and inside FINAL: modulo 2^64, with the carry of the
low half going into the high half and the carry out of bit 63 dropped. -/
def Obligations.CounterCarriesIntoTheHighHalf : Prop :=
  (∀ (s : State) (d : Byte),
    (s.absorbByte d).len.toNat = (s.len.toNat + 8) % 2 ^ 64 ∧
    (lenLo (s.absorbByte d).len).toNat = ((lenLo s.len).toNat + 8) % 2 ^ 32 ∧
    (lenHi (s.absorbByte d).len).toNat =
      if 2 ^ 32 ≤ (lenLo s.len).toNat + 8 then ((lenHi s.len).toNat + 1) % 2 ^ 32 else (lenHi s.len).toNat) ∧
  (∀ (c : Context) (data : List Byte),
    (c.absorbChunk data).len = c.len + BitVec.ofNat 64 data.length <<< 3 ∧
    (c.absorbChunk data).len.toNat = (c.len.toNat + 8 * data.length) % 2 ^ 64 ∧
    (lenLo (c.absorbChunk data).len).toNat = ((lenLo c.len).toNat + 8 * data.length) % 2 ^ 32 ∧
    (lenHi (c.absorbChunk data).len).toNat =
      ((lenHi c.len).toNat + ((lenLo c.len).toNat + 8 * data.length) / 2 ^ 32) % 2 ^ 32) ∧
  (∀ s : State, s.phase = .ready → s.len.extractLsb' 0 3 = 0 → ∃ t, exec .final s = .next t ∧
    t.len.toNat = (s.len.toNat + 8 * (1 + zeroCount (occupancy s.len).val + 8)) % 2 ^ 64)

/-! ## FINAL -/

/-- R140 to R147, R152: in `P_READY` FINAL completes, whatever the occupancy: the context is what absorbing the marker,
the zeros and the eight length bytes one after the other makes of it, `P_FINALIZED`, the digest readable; when no
block boundary lies inside the padding before the last byte, the held bytes stay in `BUF`. `ERR` and the host's list
are as they were, and the finalizer stands at its end. For a `LEN` with `LEN[2:0] ≠ 0`, which no run from INIT on
has, the statement rests on log entry 6 (the exit test is R152's). -/
def Obligations.FinalInReadyAbsorbsThePadding : Prop :=
  ∀ s : State, s.phase = .ready →
    ∃ t, exec .final s = .next t ∧ t.ctx = s.ctx.absorbBytes (paddingBytes s.len) ∧
      t.phase = .finalized ∧ t.dvalid = true ∧ t.readDigest = .ok t.h.digest ∧
      t.err = s.err ∧ t.busy = false ∧ t.fstep = .done ∧ t.inputs = s.inputs ∧
      ((occupancy s.len).val ≤ 55 → ∀ k : Fin 64, k < occupancy s.len → t.buf[k] = s.buf[k])

/-- R143: the zero fill absorbs `z = (55 - j0) mod 64` zeros, the test being made before each: after the marker and
those zeros, and not before, the occupancy is 56, and the marker and zeros complete a block exactly when `j0 >= 56`.
The occupancy test is the test `LEN mod 512 = 448`. -/
def Obligations.ZeroFillStopsAtOccupancy56 : Prop :=
  (∀ s : State, ∀ z : Nat, s.len.extractLsb' 0 3 = 0 → z = zeroCount (occupancy s.len).val →
    z ≤ 63 ∧ (z + (occupancy s.len).val) % 64 = 55 ∧
    (State.finalizerSteps (1 + z + 1) s.capture).fstep = .lengthByte 0 ∧
    (State.finalizerSteps (1 + z + 1) s.capture).ctx = s.ctx.absorbBytes (0x80 :: List.replicate z 0x00) ∧
    (∀ m : Nat, m ≤ z →
      ((occupancy (s.ctx.absorbBytes (0x80 :: List.replicate m 0x00)).len).val = 56 ↔ m = z)) ∧
    ((occupancy s.len).val + 1 + z) / 64 = (if (occupancy s.len).val ≤ 55 then 0 else 1)) ∧
  (∀ len : Dword, len.extractLsb' 0 3 = 0 → (len.toNat % 512 = 448 ↔ (occupancy len).val = 56))

/-- R144: the eight length bytes go to `BUF[56..63]`, most significant first, so the last block's `W[14]` and `W[15]`
are the two halves of the captured length, and `H` is the compression of that last block. -/
def Obligations.LengthBytesEndTheLastBlock : Prop :=
  ∀ s : State, s.phase = .ready → s.len.extractLsb' 0 3 = 0 → ∃ t, exec .final s = .next t ∧
    (∀ i : Fin 8, t.buf[56 + i.val] = s.len.extractLsb' (56 - 8 * i.val) 8) ∧
    parseWord t.buf 14 = s.len.extractLsb' 32 32 ∧ parseWord t.buf 15 = s.len.extractLsb' 0 32 ∧
    t.h = compress
      (s.ctx.absorbBytes (0x80 :: List.replicate (zeroCount (occupancy s.len).val) 0x00)).h t.buf

/-- R145: FINAL runs one compression step when the occupancy is at most 55 and two when it is 56 to 63: `H` is folded
through exactly the blocks of the held bytes followed by the padding. For a `LEN` with `LEN[2:0] ≠ 0` it rests on log
entry 6. -/
def Obligations.FinalRunsOneOrTwoCompressionSteps : Prop :=
  ∀ (s : State) (n : Nat), s.phase = .ready → n = (if (occupancy s.len).val ≤ 55 then 1 else 2) →
    ∃ t, exec .final s = .next t ∧ (s.ctx.heldBytes ++ paddingBytes s.len).length = 64 * n ∧
      t.h = hashBlocks s.h (s.ctx.heldBytes ++ paddingBytes s.len) n

/-- R146: the state after FINAL: `P_FINALIZED`, the final hash, `LEN` the next multiple of 512 at or above `FC + 65`
modulo 2^64, an empty buffer, `ERR` unchanged; ABSB and FINAL are rejected from there. -/
def Obligations.FinalLeavesAWholeNumberOfBlocks : Prop :=
  ∀ s : State, s.phase = .ready → s.len.extractLsb' 0 3 = 0 →
    ∃ t, exec .final s = .next t ∧ t.phase = .finalized ∧ t.h = (s.ctx.absorbBytes (paddingBytes s.len)).h ∧
      t.len.toNat = (s.len.toNat + 8 * (1 + zeroCount (occupancy s.len).val + 8)) % 2 ^ 64 ∧
      t.len.toNat = ((s.len.toNat + 65 + 511) / 512 * 512) % 2 ^ 64 ∧
      (occupancy t.len).val = 0 ∧ t.err = s.err ∧
      (∀ d, exec (.absb d) t = .next { t with err := true }) ∧ exec .final t = .next { t with err := true }

/-! ## Rejects -/

/-- R75: the 256 words `0x300` to `0x3FF` are the reserved operation; it is rejected with `E_RSVD` in every phase, and
sets `ERR` and nothing else. -/
def Obligations.ReservedIsRejectedInEveryPhase : Prop :=
  (∀ c : CmdWord, 0x300 ≤ c.toNat → decode c = .reserved) ∧
  (∀ s : State, rejectReason .reserved s.phase = some .eRsvd ∧
    ∃ t, exec .reserved s = .next t ∧ t = { s with err := true } ∧ (s.err = false → t ≠ s))

/-- R161: the three reasons with their codes, by whom and when each is raised; INIT is never rejected; the hardware
does not record which reason it was. -/
def Obligations.RejectReasonsAndCodes : Prop :=
  Reject.eRsvd.code = 1 ∧ Reject.eUninit.code = 2 ∧ Reject.eClosed.code = 3 ∧
  (∀ (i : Instr) (p : Phase),
    (rejectReason i p = some .eRsvd ↔ i = .reserved) ∧
    (rejectReason i p = some .eUninit ↔ (i = .final ∨ ∃ d, i = .absb d) ∧ p = .uninit) ∧
    (rejectReason i p = some .eClosed ↔ (i = .final ∨ ∃ d, i = .absb d) ∧ p = .finalized)) ∧
  (∀ p : Phase, rejectReason .init p = none) ∧
  (∀ (i i' : Instr) (s : State), (rejectReason i s.phase).isSome = true → (rejectReason i' s.phase).isSome = true →
    exec i s = exec i' s)

/-- R162: a rejected command sets `ERR` and changes nothing else: `H`, `LEN`, `BUF`, `PHASE` and every hidden register
keep their values. -/
def Obligations.RejectSetsErrAndNothingElse : Prop :=
  ∀ (i : Instr) (s : State), (rejectReason i s.phase).isSome = true → exec i s = .next { s with err := true }

/-- R27: the whole transition table of `PHASE`, with the reject of each entry, and the reset value. -/
def Obligations.PhaseFollowsItsTable : Prop :=
  State.reset.phase = .uninit ∧
  ∀ (s : State) (i : Instr), ∃ t, exec i s = .next t ∧
    match i, s.phase with
    | .init, _ => t.phase = .ready ∧ rejectReason i s.phase = none
    | .absb _, .uninit => t.phase = .uninit ∧ rejectReason i s.phase = some .eUninit ∧ t.err = true
    | .absb _, .ready => t.phase = .ready ∧ rejectReason i s.phase = none
    | .absb _, .finalized => t.phase = .finalized ∧ rejectReason i s.phase = some .eClosed ∧ t.err = true
    | .final, .uninit => t.phase = .uninit ∧ rejectReason i s.phase = some .eUninit ∧ t.err = true
    | .final, .ready => t.phase = .finalized ∧ rejectReason i s.phase = none
    | .final, .finalized => t.phase = .finalized ∧ rejectReason i s.phase = some .eClosed ∧ t.err = true
    | .reserved, p => t.phase = p ∧ rejectReason i s.phase = some .eRsvd ∧ t.err = true

/-- R25, R163, R167: `ERR` is a record. At a reset edge it becomes 0; at any other edge it becomes 1 exactly when it
was 1 or the command accepted there is rejected. -/
def Obligations.ErrRecordsRejectsUntilReset : Prop :=
  ∀ s t : State, step s = .next t →
    (s.portIn.rst = true → t.err = false) ∧ (s.portIn.rst = false → t.err = (s.err || s.rejectsNext))

/-- R25, R163: no command behaves differently when `ERR = 1`. -/
def Obligations.ErrChangesNoBehaviour : Prop :=
  ∀ (i : Instr) (s t : State), exec i s = .next t → exec i { s with err := true } = .next { t with err := true }

/-- R182: the reset event is the only way into `P_UNINIT` and the only way to clear `ERR`, and it leaves `H` and `LEN`
unspecified (free values: the model's choice, log entry 3), not the IV and zero. -/
def Obligations.OnlyResetReturnsToUninit : Prop :=
  ∀ s t : State, step s = .next t →
    (s.phase ≠ .uninit → t.phase = .uninit → s.portIn.rst = true) ∧
    (s.err = true → t.err = false → s.portIn.rst = true) ∧
    (s.portIn.rst = true → t.h = freeHash s.free ∧ t.len = Config.freeDword s.free 0)

/-! ## The digest -/

/-- R147, R148: the twenty bytes are the five words in word order, each big-endian, and byte `n` stands on the port at
`digest[159-8n : 152-8n]`. -/
def Obligations.DigestPortShowsTheDigestBytes : Prop :=
  ∀ h : Hash, h.digestBytes.length = 20 ∧
    h.digest.extractLsb' 128 32 = h.h0 ∧ h.digest.extractLsb' 96 32 = h.h1 ∧ h.digest.extractLsb' 64 32 = h.h2 ∧
    h.digest.extractLsb' 32 32 = h.h3 ∧ h.digest.extractLsb' 0 32 = h.h4 ∧
    (∀ n : Nat, n < 20 → h.digestBytes[n]? = some (h.digest.extractLsb' (152 - 8 * n) 8)) ∧
    (∀ i k : Nat, i < 5 → k < 4 →
      h.digestBytes[4 * i + k]? = ([h.h0, h.h1, h.h2, h.h3, h.h4][i]?).map fun w => w.extractLsb' (24 - 8 * k) 8)

/-- R149: `dvalid = 1` exactly when `PHASE = P_FINALIZED` and no command is in progress; the host can read the digest
then, and is refused at any other time. -/
def Obligations.DigestIsReadableExactlyWhenValid : Prop :=
  ∀ s : State, (s.dvalid = true ↔ s.phase = .finalized ∧ s.busy = false) ∧
    (s.dvalid = true → s.readDigest = .ok s.h.digest) ∧ (s.dvalid = false → s.readDigest = .error .digestNotValid)

/-- R150: once produced the digest is immutable: in `P_FINALIZED` every edge but a reset and an accepted INIT leaves
`H`, the phase and the readable digest as they are; INIT withdraws the digest in the step that loads the IV. -/
def Obligations.DigestStaysUntilInitOrReset : Prop :=
  ∀ s : State, s.phase = .finalized → s.busy = false → ∃ t, step s = .next t ∧
    (s.sample = .reset → t.dvalid = false) ∧
    ((∃ c, s.sample = .accept c ∧ decode c = .init) → t.h = iv ∧ t.dvalid = false) ∧
    (s.sample ≠ .reset → (∀ c, s.sample = .accept c → decode c ≠ .init) →
      t.h = s.h ∧ t.phase = .finalized ∧ t.dvalid = true ∧ t.readDigest = s.readDigest)

/-! ## The compression step -/

/-- R90: `Compress` follows its pseudocode: the parsed words, the schedule, the eighty rounds with the function and
constant of each stage of twenty, and the fold. -/
def Obligations.CompressFollowsItsPseudocode : Prop :=
  ∀ (h : Hash) (blk : Block), ∃ (w : Nat → Word) (x : Nat → Work),
    (∀ i : Fin 16, w i.val =
      be32 blk[4 * i.val] blk[4 * i.val + 1] blk[4 * i.val + 2] blk[4 * i.val + 3]) ∧
    (∀ t, 16 ≤ t → t < 80 → w t = rotl (w (t - 3) ^^^ w (t - 8) ^^^ w (t - 14) ^^^ w (t - 16)) 1) ∧
    x 0 = ⟨h.h0, h.h1, h.h2, h.h3, h.h4⟩ ∧
    (∀ t, t < 80 → x (t + 1) =
      ⟨rotl (x t).a 5 +
          (if t < 20 then ((x t).b &&& (x t).c) ||| (~~~(x t).b &&& (x t).d)
            else if t < 40 then (x t).b ^^^ (x t).c ^^^ (x t).d
            else if t < 60 then ((x t).b &&& (x t).c) ||| ((x t).b &&& (x t).d) ||| ((x t).c &&& (x t).d)
            else (x t).b ^^^ (x t).c ^^^ (x t).d) +
          (x t).e + w t +
          (if t < 20 then 0x5a827999 else if t < 40 then 0x6ed9eba1 else if t < 60 then 0x8f1bbcdc else 0xca62c1d6),
        (x t).a, rotl (x t).b 30, (x t).c, (x t).d⟩) ∧
    compress h blk = ⟨h.h0 + (x 80).a, h.h1 + (x 80).b, h.h2 + (x 80).c, h.h3 + (x 80).d, h.h4 + (x 80).e⟩

/-- R93: the schedule satisfies its recurrence at every `t` from 16 to 79, and an all-zero block gives an all-zero
schedule. -/
def Obligations.ScheduleSatisfiesItsRecurrence : Prop :=
  ∀ blk : Block,
    (∀ i : Fin 16, (schedule blk)[i.val] =
      be32 blk[4 * i.val] blk[4 * i.val + 1] blk[4 * i.val + 2] blk[4 * i.val + 3]) ∧
    (∀ (t : Nat) (h : 16 ≤ t ∧ t < 80), (schedule blk)[t] =
      rotl ((schedule blk)[t - 3] ^^^ (schedule blk)[t - 8] ^^^ (schedule blk)[t - 14] ^^^ (schedule blk)[t - 16]) 1) ∧
    ((∀ k : Fin 64, blk[k] = 0) → ∀ t : Fin 80, (schedule blk)[t] = 0)

/-- R91, R103: the engine's 82 micro-steps, run on the hidden registers whatever these held, compute `Compress` and
stop at `T = 80`. -/
def Obligations.EngineComputesCompress : Prop :=
  ∀ (h : Hash) (blk : Block) (g : Engine),
    fold h (Engine.run h blk g).work = compress h blk ∧ (Engine.run h blk g).t.val = 80

/-- R106 (a): the sixteen-word sliding window computes `Compress`. -/
def Obligations.SlidingWindowComputesCompress : Prop :=
  ∀ (h : Hash) (blk : Block), compressWindow h blk = compress h blk

/-- R96 corner cases and R106 (b): the other forms of the stage functions. -/
def Obligations.StageFunctionsHaveTheirOtherForms : Prop :=
  ∀ b c d : Word,
    choose b c d = d ^^^ (b &&& (c ^^^ d)) ∧
    majority b c d = (b &&& c) ||| (d &&& (b ||| c)) ∧
    majority b c d = (b &&& c) ^^^ (b &&& d) ^^^ (c &&& d) ∧
    choose 0xffffffff c d = c ∧ choose 0 c d = d ∧ parity b b d = d ∧ majority b b d = b

/-- R100: rotation by 1, 5 and 30 is circular and loses no bit; two rotations by 30 and 2 cancel; 30 to the left is 2
to the right. -/
def Obligations.RotationLosesNoBit : Prop :=
  ∀ x : Word,
    (∀ n ∈ [1, 5, 30], ∀ i : Nat, i < 32 → (rotl x n).getLsbD ((i + n) % 32) = x.getLsbD i) ∧
    (∀ n ∈ [1, 5, 30], (List.range 32).countP (rotl x n).getLsbD = (List.range 32).countP x.getLsbD) ∧
    rotl (rotl x 30) 2 = x ∧ rotl x 30 = (x >>> 2) ||| (x <<< 30)

/-- R51, R52, R53: the three big-endian conversions, by arithmetic and by slices, that `Ser32` and `BE32` are inverse,
and that `Ser64` is the high half's bytes before the low half's. -/
def Obligations.ByteOrderIsBigEndian : Prop :=
  (∀ b0 b1 b2 b3 : Byte,
    be32 b0 b1 b2 b3 = b0 ++ b1 ++ b2 ++ b3 ∧
    (be32 b0 b1 b2 b3).toNat = b0.toNat * 2 ^ 24 + b1.toNat * 2 ^ 16 + b2.toNat * 2 ^ 8 + b3.toNat ∧
    ser32 (be32 b0 b1 b2 b3) = [b0, b1, b2, b3]) ∧
  (∀ (blk : Block) (i : Fin 16), (parse blk)[i] =
    be32 blk[4 * i.val] blk[4 * i.val + 1] blk[4 * i.val + 2] blk[4 * i.val + 3]) ∧
  (∀ w : Word,
    ser32 w = [w.extractLsb' 24 8, w.extractLsb' 16 8, w.extractLsb' 8 8, w.extractLsb' 0 8] ∧
    be32 (w.extractLsb' 24 8) (w.extractLsb' 16 8) (w.extractLsb' 8 8) (w.extractLsb' 0 8) = w) ∧
  (∀ v : Dword, (ser64 v).length = 8 ∧
    (∀ i : Nat, i < 8 → (ser64 v)[i]? = some (v.extractLsb' (56 - 8 * i) 8)) ∧
    ser64 v = ser32 (v.extractLsb' 32 32) ++ ser32 (v.extractLsb' 0 32))

/-! ## Messages -/

/-- R127: the document's chunk algorithm and the ABSB commands of its bytes, run on CORE, reach the same `H`, the same
`LEN` and the same valid buffer bytes. -/
def Obligations.ChunkAlgorithmEqualsItsBytes : Prop :=
  ∀ (s : State) (data : List Byte) (rest : List PortIn), s.phase = .ready → s.busy = false →
    ∃ t, Host.Core.run core data.length { s with inputs := offers (data.map Instr.absb) ++ rest } = .next t ∧
      (s.ctx.absorbChunk data).Agree t.ctx ∧ t.phase = .ready ∧ t.err = s.err ∧ t.inputs = rest

/-- "Chunking invariance" (R127): a message absorbed in any list of chunks reaches the context that absorbing it in one
call reaches. -/
def Obligations.ChunkingMakesNoDifference : Prop :=
  ∀ (c : Context) (chunks : List (List Byte)),
    (c.absorbChunk chunks.flatten).Agree (chunks.foldl Context.absorbChunk c)

/-- R128: a chunk of length 0 changes nothing at all, and an empty ABSORB is zero commands. -/
def Obligations.EmptyChunkChangesNothing : Prop :=
  (∀ c : Context, c.absorbChunk [] = c) ∧ assemble [.absorbBytes []] = some [] ∧ assemble [.absorbText []] = some []

/-- R130: the state of an open message, from every state CORE is idle in: with `n` bytes absorbed since INIT,
`LEN = 8n`, the occupancy is `n mod 64`, the buffer holds the last bytes, and `H` is the IV folded through the whole
blocks so far. -/
def Obligations.OpenMessageStateIsDetermined : Prop :=
  ∀ (s : State) (m : List Byte) (rest : List PortIn), s.busy = false → m.length < 2 ^ 61 →
    ∃ t, Host.Core.run core (m.length + 1) { s with inputs := offers (openCommands m) ++ rest } = .next t ∧
      t.len.toNat = 8 * m.length ∧ (occupancy t.len).val = m.length % 64 ∧
      (∀ k : Fin 64, k.val < m.length % 64 → m[m.length - m.length % 64 + k.val]? = some t.buf[k]) ∧
      t.h = hashBlocks iv m (m.length / 64) ∧ t.phase = .ready ∧ t.err = s.err ∧ t.inputs = rest

/-- R151, R147: the hardware computes the closed form. From every state CORE is idle in, INIT, the bytes of any message
of fewer than 2^61 bytes and FINAL leave the digest of the padded message, whatever was hashed before. -/
def Obligations.MessageDigestIsTheClosedForm : Prop :=
  ∀ (s : State) (m : List Byte) (rest : List PortIn), s.busy = false → m.length < 2 ^ 61 →
    (∃ z, z < 64 ∧ (z + m.length) % 64 = 55 ∧
      paddedMessage m = m ++ 0x80 :: (List.replicate z 0x00 ++ ser64 (BitVec.ofNat 64 (8 * m.length))) ∧
      (paddedMessage m).length = m.length + 1 + z + 8 ∧ (m.length + 1 + z + 8) % 64 = 0) ∧
    ∃ t, Host.Core.run core (m.length + 2) { s with inputs := offers (messageCommands m) ++ rest } = .next t ∧
      t.h = sha1 m ∧ t.phase = .finalized ∧ t.readDigest = .ok (sha1 m).digest ∧ t.err = s.err ∧ t.inputs = rest

/-- R35, R36: hidden registers, stale bytes, and before the first INIT also `H`, `LEN` and `BUF`, never affect
anything: two instances that agree on the rest still agree, and show the same on every port, after any number of
edges. -/
def Obligations.HiddenStateNeverMatters : Prop :=
  ∀ (n : Nat) (s t : State), s.SameTo t →
    ∃ s' t', Host.Core.run core n s = .next s' ∧ Host.Core.run core n t = .next t' ∧ s'.SameTo t' ∧
      s'.ports = t'.ports

/-! ## The listing notation -/

/-- R78 to R81: what every item of a listing emits, and which items are assembler errors. Text is printable ASCII
(codes 32 to 126) and each character stands for its code; the double quote, code 34, ends the text and so is none of
its characters. The spec
calls `ABSB` out of range an error; that `.word` above 1023, other text, and a listing with such an item are errors
too is the model's reading (DESIGN CHOICE, log entry 8). How the characters of a line are read as an item is not stated
here. -/
def Obligations.ListingEmitsTheCommands : Prop :=
  assemble [.init] = some [.accept 0x000] ∧ assemble [.final] = some [.accept 0x200] ∧
  (∀ n : Nat, assemble [.absb n] = if n ≤ 255 then some [.accept (BitVec.ofNat 10 (0x100 + n))] else none) ∧
  (∀ w : Nat, assemble [.word w] = if w ≤ 1023 then some [.accept (BitVec.ofNat 10 w)] else none) ∧
  (∀ l : List Nat, (∀ b ∈ l, b ≤ 255) →
    assemble [.absorbBytes l] = some (l.map fun b => .accept (BitVec.ofNat 10 (0x100 + b))) ∧
    assemble [.hashBytes l] = assemble [.init, .absorbBytes l, .final]) ∧
  (∀ l : List Nat, (∃ b ∈ l, 255 < b) → assemble [.absorbBytes l] = none ∧ assemble [.hashBytes l] = none) ∧
  (∀ text : List Char, (∀ c ∈ text, 32 ≤ c.toNat ∧ c.toNat ≤ 126 ∧ c.toNat ≠ 34) →
    assemble [.absorbText text] = some (text.map fun c => .accept (BitVec.ofNat 10 (0x100 + c.toNat))) ∧
    assemble [.hashText text] = assemble [.init, .absorbText text, .final]) ∧
  (∀ text : List Char, (∃ c ∈ text, c.toNat < 32 ∨ 126 < c.toNat) →
    assemble [.absorbText text] = none ∧ assemble [.hashText text] = none) ∧
  (∀ b n : Nat, assemble [.absorbTimes b n] =
    if b ≤ 255 then some (List.replicate n (.accept (BitVec.ofNat 10 (0x100 + b)))) else none) ∧
  assemble [.reset] = some [.reset] ∧
  BusEvent.reset.portIn.rst = true ∧
  (∀ c : CmdWord, (BusEvent.accept c).portIn = ⟨false, true, c⟩) ∧
  assemble [] = some [] ∧
  (∀ l m : List AsmItem, assemble (l ++ m) = (assemble l).bind fun a => (assemble m).map fun b => a ++ b) ∧
  (∀ m : List Byte, assemble [.hashBytes (m.map BitVec.toNat)] =
    some ((messageCommands m).map fun i => .accept (encode i)))
end

