-- ==== Sys2Proof/Laws/State.lean ====
section
/-!
SUPPORT. One lemma per field per update of the state, each true by rfl, so that no proof unfolds a record update.
`State.compressStep` and `State.finalize` are an update after a long computation (`Engine.run`,
`State.runFinalizer`): their lemmas are rewritten from the update's own, because a `rfl` there would make Lean unroll
the computation.
-/

namespace Sys2Proof.Machine

/-! `State.reject`: `ERR` alone is written (R162). -/

@[simp] theorem State.reject_h (r : Reject) (s : State) : (s.reject r).h = s.h := rfl
@[simp] theorem State.reject_len (r : Reject) (s : State) : (s.reject r).len = s.len := rfl
@[simp] theorem State.reject_buf (r : Reject) (s : State) : (s.reject r).buf = s.buf := rfl
@[simp] theorem State.reject_phase (r : Reject) (s : State) : (s.reject r).phase = s.phase := rfl
@[simp] theorem State.reject_err (r : Reject) (s : State) : (s.reject r).err = true := rfl
@[simp] theorem State.reject_eng (r : Reject) (s : State) : (s.reject r).eng = s.eng := rfl
@[simp] theorem State.reject_fc (r : Reject) (s : State) : (s.reject r).fc = s.fc := rfl
@[simp] theorem State.reject_busy (r : Reject) (s : State) : (s.reject r).busy = s.busy := rfl
@[simp] theorem State.reject_fstep (r : Reject) (s : State) : (s.reject r).fstep = s.fstep := rfl
@[simp] theorem State.reject_free (r : Reject) (s : State) : (s.reject r).free = s.free := rfl
@[simp] theorem State.reject_inputs (r : Reject) (s : State) : (s.reject r).inputs = s.inputs := rfl

/-! `State.openMessage`: `H`, `LEN`, `PHASE` (R120). -/

@[simp] theorem State.openMessage_h (s : State) : (s.openMessage).h = iv := rfl
@[simp] theorem State.openMessage_len (s : State) : (s.openMessage).len = 0 := rfl
@[simp] theorem State.openMessage_buf (s : State) : (s.openMessage).buf = s.buf := rfl
@[simp] theorem State.openMessage_phase (s : State) : (s.openMessage).phase = .ready := rfl
@[simp] theorem State.openMessage_err (s : State) : (s.openMessage).err = s.err := rfl
@[simp] theorem State.openMessage_eng (s : State) : (s.openMessage).eng = s.eng := rfl
@[simp] theorem State.openMessage_fc (s : State) : (s.openMessage).fc = s.fc := rfl
@[simp] theorem State.openMessage_busy (s : State) : (s.openMessage).busy = s.busy := rfl
@[simp] theorem State.openMessage_fstep (s : State) : (s.openMessage).fstep = s.fstep := rfl
@[simp] theorem State.openMessage_free (s : State) : (s.openMessage).free = s.free := rfl
@[simp] theorem State.openMessage_inputs (s : State) : (s.openMessage).inputs = s.inputs := rfl

/-! `State.pastEdge`: the host's list alone. -/

@[simp] theorem State.pastEdge_h (s : State) : (s.pastEdge).h = s.h := rfl
@[simp] theorem State.pastEdge_len (s : State) : (s.pastEdge).len = s.len := rfl
@[simp] theorem State.pastEdge_buf (s : State) : (s.pastEdge).buf = s.buf := rfl
@[simp] theorem State.pastEdge_phase (s : State) : (s.pastEdge).phase = s.phase := rfl
@[simp] theorem State.pastEdge_err (s : State) : (s.pastEdge).err = s.err := rfl
@[simp] theorem State.pastEdge_eng (s : State) : (s.pastEdge).eng = s.eng := rfl
@[simp] theorem State.pastEdge_fc (s : State) : (s.pastEdge).fc = s.fc := rfl
@[simp] theorem State.pastEdge_busy (s : State) : (s.pastEdge).busy = s.busy := rfl
@[simp] theorem State.pastEdge_fstep (s : State) : (s.pastEdge).fstep = s.fstep := rfl
@[simp] theorem State.pastEdge_free (s : State) : (s.pastEdge).free = s.free := rfl
@[simp] theorem State.pastEdge_inputs (s : State) : (s.pastEdge).inputs = s.inputs.tail := rfl

/-! `State.resetEvent`: the three the spec fixes, and free values (R180). -/

@[simp] theorem State.resetEvent_h (s : State) : (s.resetEvent).h = freeHash s.free := rfl
@[simp] theorem State.resetEvent_len (s : State) : (s.resetEvent).len = Config.freeDword s.free 0 := rfl
@[simp] theorem State.resetEvent_buf (s : State) : (s.resetEvent).buf = (Vector.ofFn fun i => Config.freeByte s.free i.val) := rfl
@[simp] theorem State.resetEvent_phase (s : State) : (s.resetEvent).phase = .uninit := rfl
@[simp] theorem State.resetEvent_err (s : State) : (s.resetEvent).err = false := rfl
@[simp] theorem State.resetEvent_eng (s : State) : (s.resetEvent).eng = ⟨freeWork s.free, freeSchedule s.free, Config.freeRound s.free⟩ := rfl
@[simp] theorem State.resetEvent_fc (s : State) : (s.resetEvent).fc = Config.freeDword s.free 1 := rfl
@[simp] theorem State.resetEvent_busy (s : State) : (s.resetEvent).busy = false := rfl
@[simp] theorem State.resetEvent_fstep (s : State) : (s.resetEvent).fstep = FStep.ofFin (Config.freePosition s.free) := rfl
@[simp] theorem State.resetEvent_free (s : State) : (s.resetEvent).free = s.free + 1 := rfl
@[simp] theorem State.resetEvent_inputs (s : State) : (s.resetEvent).inputs = s.inputs := rfl

/-! `State.takeByte`: `LEN` and one byte of `BUF` (R124). -/

@[simp] theorem State.takeByte_h (d : Byte) (s : State) : (s.takeByte d).h = s.h := rfl
@[simp] theorem State.takeByte_len (d : Byte) (s : State) : (s.takeByte d).len = countByte s.len := rfl
@[simp] theorem State.takeByte_buf (d : Byte) (s : State) : (s.takeByte d).buf = storeByte s.buf (occupancy s.len) d := rfl
@[simp] theorem State.takeByte_phase (d : Byte) (s : State) : (s.takeByte d).phase = s.phase := rfl
@[simp] theorem State.takeByte_err (d : Byte) (s : State) : (s.takeByte d).err = s.err := rfl
@[simp] theorem State.takeByte_eng (d : Byte) (s : State) : (s.takeByte d).eng = s.eng := rfl
@[simp] theorem State.takeByte_fc (d : Byte) (s : State) : (s.takeByte d).fc = s.fc := rfl
@[simp] theorem State.takeByte_busy (d : Byte) (s : State) : (s.takeByte d).busy = s.busy := rfl
@[simp] theorem State.takeByte_fstep (d : Byte) (s : State) : (s.takeByte d).fstep = s.fstep := rfl
@[simp] theorem State.takeByte_free (d : Byte) (s : State) : (s.takeByte d).free = s.free := rfl
@[simp] theorem State.takeByte_inputs (d : Byte) (s : State) : (s.takeByte d).inputs = s.inputs := rfl

/-! `State.foldEngine`: `H` and the engine (R98). -/

@[simp] theorem State.foldEngine_h (s : State) (g : Engine) : (s.foldEngine g).h = fold s.h g.work := rfl
@[simp] theorem State.foldEngine_len (s : State) (g : Engine) : (s.foldEngine g).len = s.len := rfl
@[simp] theorem State.foldEngine_buf (s : State) (g : Engine) : (s.foldEngine g).buf = s.buf := rfl
@[simp] theorem State.foldEngine_phase (s : State) (g : Engine) : (s.foldEngine g).phase = s.phase := rfl
@[simp] theorem State.foldEngine_err (s : State) (g : Engine) : (s.foldEngine g).err = s.err := rfl
@[simp] theorem State.foldEngine_eng (s : State) (g : Engine) : (s.foldEngine g).eng = g.released s.free := rfl
@[simp] theorem State.foldEngine_fc (s : State) (g : Engine) : (s.foldEngine g).fc = s.fc := rfl
@[simp] theorem State.foldEngine_busy (s : State) (g : Engine) : (s.foldEngine g).busy = s.busy := rfl
@[simp] theorem State.foldEngine_fstep (s : State) (g : Engine) : (s.foldEngine g).fstep = s.fstep := rfl
@[simp] theorem State.foldEngine_free (s : State) (g : Engine) : (s.foldEngine g).free = s.free + 1 := rfl
@[simp] theorem State.foldEngine_inputs (s : State) (g : Engine) : (s.foldEngine g).inputs = s.inputs := rfl

/-! `State.capture`: `FC` and `FSTEP` (R141). -/

@[simp] theorem State.capture_h (s : State) : s.capture.h = s.h := rfl
@[simp] theorem State.capture_len (s : State) : s.capture.len = s.len := rfl
@[simp] theorem State.capture_buf (s : State) : s.capture.buf = s.buf := rfl
@[simp] theorem State.capture_phase (s : State) : s.capture.phase = s.phase := rfl
@[simp] theorem State.capture_err (s : State) : s.capture.err = s.err := rfl
@[simp] theorem State.capture_eng (s : State) : s.capture.eng = s.eng := rfl
@[simp] theorem State.capture_fc (s : State) : s.capture.fc = s.len := rfl
@[simp] theorem State.capture_busy (s : State) : s.capture.busy = s.busy := rfl
@[simp] theorem State.capture_fstep (s : State) : s.capture.fstep = .marker := rfl
@[simp] theorem State.capture_free (s : State) : s.capture.free = s.free := rfl
@[simp] theorem State.capture_inputs (s : State) : s.capture.inputs = s.inputs := rfl

/-! `State.closeMessage`: `PHASE`, and `FC` let go (R146). -/

@[simp] theorem State.closeMessage_h (s : State) : (s.closeMessage).h = s.h := rfl
@[simp] theorem State.closeMessage_len (s : State) : (s.closeMessage).len = s.len := rfl
@[simp] theorem State.closeMessage_buf (s : State) : (s.closeMessage).buf = s.buf := rfl
@[simp] theorem State.closeMessage_phase (s : State) : (s.closeMessage).phase = .finalized := rfl
@[simp] theorem State.closeMessage_err (s : State) : (s.closeMessage).err = s.err := rfl
@[simp] theorem State.closeMessage_eng (s : State) : (s.closeMessage).eng = s.eng := rfl
@[simp] theorem State.closeMessage_fc (s : State) : (s.closeMessage).fc = Config.freeDword s.free 1 := rfl
@[simp] theorem State.closeMessage_busy (s : State) : (s.closeMessage).busy = s.busy := rfl
@[simp] theorem State.closeMessage_fstep (s : State) : (s.closeMessage).fstep = s.fstep := rfl
@[simp] theorem State.closeMessage_free (s : State) : (s.closeMessage).free = s.free + 1 := rfl
@[simp] theorem State.closeMessage_inputs (s : State) : (s.closeMessage).inputs = s.inputs := rfl

/-! `State.busyWhile`: what the command leaves, with `BUSY = 0` (R34). -/

@[simp] theorem State.busyWhile_h (f : State → State) (s : State) :
    (s.busyWhile f).h = (f { s with busy := true }).h := rfl
@[simp] theorem State.busyWhile_len (f : State → State) (s : State) :
    (s.busyWhile f).len = (f { s with busy := true }).len := rfl
@[simp] theorem State.busyWhile_buf (f : State → State) (s : State) :
    (s.busyWhile f).buf = (f { s with busy := true }).buf := rfl
@[simp] theorem State.busyWhile_phase (f : State → State) (s : State) :
    (s.busyWhile f).phase = (f { s with busy := true }).phase := rfl
@[simp] theorem State.busyWhile_err (f : State → State) (s : State) :
    (s.busyWhile f).err = (f { s with busy := true }).err := rfl
@[simp] theorem State.busyWhile_eng (f : State → State) (s : State) :
    (s.busyWhile f).eng = (f { s with busy := true }).eng := rfl
@[simp] theorem State.busyWhile_fc (f : State → State) (s : State) :
    (s.busyWhile f).fc = (f { s with busy := true }).fc := rfl
@[simp] theorem State.busyWhile_busy (f : State → State) (s : State) :
    (s.busyWhile f).busy = false := rfl
@[simp] theorem State.busyWhile_fstep (f : State → State) (s : State) :
    (s.busyWhile f).fstep = (f { s with busy := true }).fstep := rfl
@[simp] theorem State.busyWhile_free (f : State → State) (s : State) :
    (s.busyWhile f).free = (f { s with busy := true }).free := rfl
@[simp] theorem State.busyWhile_inputs (f : State → State) (s : State) :
    (s.busyWhile f).inputs = (f { s with busy := true }).inputs := rfl

/-! `State.compressStep`: `H` and the engine (R91). -/

@[simp] theorem State.compressStep_h (s : State) : s.compressStep.h = fold s.h (Engine.run s.h s.buf s.eng).work := by
  rw [State.compressStep, State.foldEngine_h]
@[simp] theorem State.compressStep_len (s : State) : s.compressStep.len = s.len := by
  rw [State.compressStep, State.foldEngine_len]
@[simp] theorem State.compressStep_buf (s : State) : s.compressStep.buf = s.buf := by
  rw [State.compressStep, State.foldEngine_buf]
@[simp] theorem State.compressStep_phase (s : State) : s.compressStep.phase = s.phase := by
  rw [State.compressStep, State.foldEngine_phase]
@[simp] theorem State.compressStep_err (s : State) : s.compressStep.err = s.err := by
  rw [State.compressStep, State.foldEngine_err]
@[simp] theorem State.compressStep_eng (s : State) : s.compressStep.eng = (Engine.run s.h s.buf s.eng).released s.free := by
  rw [State.compressStep, State.foldEngine_eng]
@[simp] theorem State.compressStep_fc (s : State) : s.compressStep.fc = s.fc := by
  rw [State.compressStep, State.foldEngine_fc]
@[simp] theorem State.compressStep_busy (s : State) : s.compressStep.busy = s.busy := by
  rw [State.compressStep, State.foldEngine_busy]
@[simp] theorem State.compressStep_fstep (s : State) : s.compressStep.fstep = s.fstep := by
  rw [State.compressStep, State.foldEngine_fstep]
@[simp] theorem State.compressStep_free (s : State) : s.compressStep.free = s.free + 1 := by
  rw [State.compressStep, State.foldEngine_free]
@[simp] theorem State.compressStep_inputs (s : State) : s.compressStep.inputs = s.inputs := by
  rw [State.compressStep, State.foldEngine_inputs]

/-! `State.finalize`: what the finalizer leaves, then `P_FINALIZED` (R140, R146). -/

@[simp] theorem State.finalize_h (s : State) : s.finalize.h = s.runFinalizer.h := by
  rw [State.finalize, State.closeMessage_h]
@[simp] theorem State.finalize_len (s : State) : s.finalize.len = s.runFinalizer.len := by
  rw [State.finalize, State.closeMessage_len]
@[simp] theorem State.finalize_buf (s : State) : s.finalize.buf = s.runFinalizer.buf := by
  rw [State.finalize, State.closeMessage_buf]
@[simp] theorem State.finalize_phase (s : State) : s.finalize.phase = .finalized := by
  rw [State.finalize, State.closeMessage_phase]
@[simp] theorem State.finalize_err (s : State) : s.finalize.err = s.runFinalizer.err := by
  rw [State.finalize, State.closeMessage_err]
@[simp] theorem State.finalize_eng (s : State) : s.finalize.eng = s.runFinalizer.eng := by
  rw [State.finalize, State.closeMessage_eng]
@[simp] theorem State.finalize_fc (s : State) : s.finalize.fc = Config.freeDword s.runFinalizer.free 1 := by
  rw [State.finalize, State.closeMessage_fc]
@[simp] theorem State.finalize_busy (s : State) : s.finalize.busy = s.runFinalizer.busy := by
  rw [State.finalize, State.closeMessage_busy]
@[simp] theorem State.finalize_fstep (s : State) : s.finalize.fstep = s.runFinalizer.fstep := by
  rw [State.finalize, State.closeMessage_fstep]
@[simp] theorem State.finalize_free (s : State) : s.finalize.free = s.runFinalizer.free + 1 := by
  rw [State.finalize, State.closeMessage_free]
@[simp] theorem State.finalize_inputs (s : State) : s.finalize.inputs = s.runFinalizer.inputs := by
  rw [State.finalize, State.closeMessage_inputs]

/-! The context and the ports of a state. -/

@[simp] theorem State.ctx_h (s : State) : s.ctx.h = s.h := rfl
@[simp] theorem State.ctx_len (s : State) : s.ctx.len = s.len := rfl
@[simp] theorem State.ctx_buf (s : State) : s.ctx.buf = s.buf := rfl
@[simp] theorem State.reject_ctx (r : Reject) (s : State) : (s.reject r).ctx = s.ctx := rfl
@[simp] theorem State.pastEdge_ctx (s : State) : s.pastEdge.ctx = s.ctx := rfl
@[simp] theorem State.openMessage_ctx (s : State) : s.openMessage.ctx = s.ctx.init := rfl
@[simp] theorem State.capture_ctx (s : State) : s.capture.ctx = s.ctx := rfl
@[simp] theorem State.closeMessage_ctx (s : State) : s.closeMessage.ctx = s.ctx := rfl
@[simp] theorem State.busyWhile_ctx (f : State → State) (s : State) :
    (s.busyWhile f).ctx = (f { s with busy := true }).ctx := rfl
@[simp] theorem State.errPort_eq (s : State) : s.errPort = s.err := rfl

end Sys2Proof.Machine
end

