-- ==== Sys2Proof/Laws/Ops.lean ====
section
/-!
SUPPORT. What each shared operation can do, said once: the byte store, the counter, `AbsorbByte`, the finalizer,
the guard that ABSB and FINAL share, and sampling an edge. Proofs about commands cite these and unfold none of them.
-/

namespace Sys2Proof.Machine

/-! The occupancy and the counter. -/

/-- The occupancy is the number of bytes counted, modulo 64 (R24). -/
theorem occupancy_val (len : Dword) : (occupancy len).val = len.toNat / 8 % 64 := by
  simp [occupancy, Nat.shiftRight_eq_div_pow]

/-- Counting a byte advances the occupancy by one, from 63 to 0 (R125). -/
theorem occupancy_countByte (len : Dword) :
    (occupancy (countByte len)).val = ((occupancy len).val + 1) % 64 := by
  have h := len.isLt
  have h8 : (8 : Dword).toNat = 8 := rfl
  simp only [occupancy_val, countByte, BitVec.toNat_add, h8]
  omega

/-! The byte store (R124). -/

@[simp] theorem storeByte_same (buf : Block) (j : Fin 64) (d : Byte) : (storeByte buf j d)[j] = d := by
  simp [storeByte]

@[simp] theorem storeByte_same_val (buf : Block) (j : Fin 64) (d : Byte) : (storeByte buf j d)[j.val] = d := by
  simp [storeByte]

theorem storeByte_other (buf : Block) {j k : Fin 64} (d : Byte) (h : k ≠ j) :
    (storeByte buf j d)[k] = buf[k] := by
  simp only [storeByte, Fin.getElem_fin]
  exact Vector.getElem_set_ne _ _ fun e => h (Fin.ext e.symm)

/-! `AbsorbByte` (R124): everything it does, by whether the byte completes a block. -/

/-- A byte that does not complete a block is counted and stored, and nothing else changes. -/
theorem absorbByte_of_ne (d : Byte) (s : State) (h : (occupancy s.len).val ≠ 63) : s.absorbByte d = s.takeByte d := by
  rw [State.absorbByte, if_neg h]

/-- A byte that completes a block is counted and stored, and one compression step runs on the full buffer. -/
theorem absorbByte_of_eq (d : Byte) (s : State) (h : (occupancy s.len).val = 63) :
    s.absorbByte d = (s.takeByte d).compressStep := by
  rw [State.absorbByte, if_pos h]

/-- What both branches of `AbsorbByte` keep, `AbsorbByte` keeps: every register but `H` and the engine's. -/
theorem absorbByte_keep {α : Type} (f : State → α) (h : ∀ s, f s.compressStep = f s) (d : Byte) (s : State) :
    f (s.absorbByte d) = f (s.takeByte d) := by
  rw [State.absorbByte]
  split
  · exact h _
  · rfl

@[simp] theorem absorbByte_len (d : Byte) (s : State) : (s.absorbByte d).len = countByte s.len :=
  absorbByte_keep State.len State.compressStep_len d s
@[simp] theorem absorbByte_buf (d : Byte) (s : State) : (s.absorbByte d).buf = storeByte s.buf (occupancy s.len) d :=
  absorbByte_keep State.buf State.compressStep_buf d s
@[simp] theorem absorbByte_phase (d : Byte) (s : State) : (s.absorbByte d).phase = s.phase :=
  absorbByte_keep State.phase State.compressStep_phase d s
@[simp] theorem absorbByte_err (d : Byte) (s : State) : (s.absorbByte d).err = s.err :=
  absorbByte_keep State.err State.compressStep_err d s
@[simp] theorem absorbByte_fc (d : Byte) (s : State) : (s.absorbByte d).fc = s.fc :=
  absorbByte_keep State.fc State.compressStep_fc d s
@[simp] theorem absorbByte_busy (d : Byte) (s : State) : (s.absorbByte d).busy = s.busy :=
  absorbByte_keep State.busy State.compressStep_busy d s
@[simp] theorem absorbByte_fstep (d : Byte) (s : State) : (s.absorbByte d).fstep = s.fstep :=
  absorbByte_keep State.fstep State.compressStep_fstep d s
@[simp] theorem absorbByte_inputs (d : Byte) (s : State) : (s.absorbByte d).inputs = s.inputs :=
  absorbByte_keep State.inputs State.compressStep_inputs d s

/-! The finalizer: no step of it touches `PHASE`, `ERR`, `BUSY`, `FC` or the host's list (R140, R152). -/

@[simp] theorem finalizerStep_phase (s : State) : s.finalizerStep.phase = s.phase := by
  unfold State.finalizerStep; split <;> (try split) <;> simp
@[simp] theorem finalizerStep_err (s : State) : s.finalizerStep.err = s.err := by
  unfold State.finalizerStep; split <;> (try split) <;> simp
@[simp] theorem finalizerStep_busy (s : State) : s.finalizerStep.busy = s.busy := by
  unfold State.finalizerStep; split <;> (try split) <;> simp
@[simp] theorem finalizerStep_fc (s : State) : s.finalizerStep.fc = s.fc := by
  unfold State.finalizerStep; split <;> (try split) <;> simp
@[simp] theorem finalizerStep_inputs (s : State) : s.finalizerStep.inputs = s.inputs := by
  unfold State.finalizerStep; split <;> (try split) <;> simp

/-- What every step of the finalizer keeps, any number of them keeps. -/
theorem finalizerSteps_keep {α : Type} (f : State → α) (h : ∀ s, f s.finalizerStep = f s) (n : Nat) (s : State) :
    f (State.finalizerSteps n s) = f s := by
  induction n generalizing s with
  | zero => rfl
  | succ n ih => rw [State.finalizerSteps, ih, h]

/-- What every step of the finalizer keeps, its whole run keeps from the capture on. -/
theorem runFinalizer_keep {α : Type} (f : State → α) (h : ∀ s, f s.finalizerStep = f s) (s : State) :
    f s.runFinalizer = f s.capture := by
  unfold State.runFinalizer
  generalize 73 = n
  exact finalizerSteps_keep f h n _

@[simp] theorem runFinalizer_phase (s : State) : s.runFinalizer.phase = s.phase :=
  runFinalizer_keep State.phase finalizerStep_phase s
@[simp] theorem runFinalizer_err (s : State) : s.runFinalizer.err = s.err :=
  runFinalizer_keep State.err finalizerStep_err s
@[simp] theorem runFinalizer_busy (s : State) : s.runFinalizer.busy = s.busy :=
  runFinalizer_keep State.busy finalizerStep_busy s
@[simp] theorem runFinalizer_fc (s : State) : s.runFinalizer.fc = s.len :=
  runFinalizer_keep State.fc finalizerStep_fc s
@[simp] theorem runFinalizer_inputs (s : State) : s.runFinalizer.inputs = s.inputs :=
  runFinalizer_keep State.inputs finalizerStep_inputs s

/-- `n + m` steps of the finalizer are `n`, then `m`. -/
theorem finalizerSteps_add (n m : Nat) (s : State) :
    State.finalizerSteps (n + m) s = State.finalizerSteps m (State.finalizerSteps n s) := by
  induction n generalizing s with
  | zero => simp [State.finalizerSteps]
  | succ n ih => rw [Nat.succ_add, State.finalizerSteps, ih, State.finalizerSteps]

/-- At `done` the finalizer stays. -/
theorem finalizerSteps_done (n : Nat) {s : State} (h : s.fstep = .done) : State.finalizerSteps n s = s := by
  induction n with
  | zero => rfl
  | succ n ih => rw [State.finalizerSteps, State.finalizerStep, h]; exact ih

/-! The guard of ABSB and FINAL (R122, R140). -/

theorem inReady_of_ready {s : State} (f : State → State) (h : s.phase = .ready) : s.inReady f = s.busyWhile f := by
  simp [State.inReady, phaseReject, h]

theorem inReady_of_uninit {s : State} (f : State → State) (h : s.phase = .uninit) :
    s.inReady f = s.reject .eUninit := by
  simp [State.inReady, phaseReject, h]

theorem inReady_of_finalized {s : State} (f : State → State) (h : s.phase = .finalized) :
    s.inReady f = s.reject .eClosed := by
  simp [State.inReady, phaseReject, h]

/-- The guarded command either rejects, in a phase that is not `P_READY`, or runs, in `P_READY`. -/
theorem inReady_cases (s : State) (f : State → State) :
    (s.phase ≠ .ready ∧ s.inReady f = s.reject (if s.phase = .uninit then .eUninit else .eClosed)) ∨ (s.phase = .ready ∧ s.inReady f = s.busyWhile f) := by
  cases h : s.phase with
  | uninit => exact .inl ⟨by simp, by simpa using inReady_of_uninit f h⟩
  | ready => exact .inr ⟨rfl, inReady_of_ready f h⟩
  | finalized => exact .inl ⟨by simp, by simpa using inReady_of_finalized f h⟩

/-! Sampling an edge (R165, R185, R188). -/

theorem sample_of_rst {s : State} (h : s.portIn.rst = true) : s.sample = .reset := by
  simp [State.sample, h]

theorem sample_of_accept {s : State} (hr : s.portIn.rst = false) (hv : s.portIn.cmdValid = true)
    (hb : s.busy = false) : s.sample = .accept s.portIn.cmd := by
  simp [State.sample, State.cmdReady, hr, hv, hb]

/-- What an edge brings, with the condition of each case. -/
theorem sample_cases (s : State) :
    (s.portIn.rst = true ∧ s.sample = .reset) ∨
    (s.portIn.rst = false ∧ s.portIn.cmdValid = true ∧ s.busy = false ∧ s.sample = .accept s.portIn.cmd) ∨
    (s.portIn.rst = false ∧ (s.portIn.cmdValid = false ∨ s.busy = true) ∧ s.sample = .nothing) := by
  cases hr : s.portIn.rst <;> cases hv : s.portIn.cmdValid <;> cases hb : s.busy <;>
    simp [State.sample, State.cmdReady, hr, hv, hb]

end Sys2Proof.Machine
end

