-- ==== Sys2Proof/Laws/Compression.lean ====
section
/-!
SUPPORT. What the pieces of the compression step do, said once: extending the schedule, placing the parsed words, a
micro-step of the engine, and the opening of the two irreducible computations with a fuel that nothing unrolls.
-/

namespace Sys2Proof.Machine

/-! The schedule (R92, R93). -/

theorem expandAt_other (w : Vector Word 80) {t i : Nat} (hi : i < 80) (h : i ≠ t) : (expandAt w t)[i] = w[i] := by
  unfold expandAt
  split
  · exact Vector.getElem_set_ne _ _ fun e => h e.symm
  · rfl

theorem expandAt_same (w : Vector Word 80) {t : Nat} (h : 16 ≤ t ∧ t < 80) :
    (expandAt w t)[t] = scheduleWord w t h := by
  unfold expandAt
  rw [dif_pos h]
  exact Vector.getElem_set_self _

theorem expandAt_parsed (w : Vector Word 80) {t : Nat} (h : t < 16) : expandAt w t = w := by
  unfold expandAt
  exact dif_neg (by omega)

/-- A schedule word depends on earlier words only (R93, R103). -/
theorem scheduleWord_congr {w v : Vector Word 80} {t : Nat} (h : 16 ≤ t ∧ t < 80)
    (e : ∀ i (hi : i < 80), i < t → w[i] = v[i]) : scheduleWord w t h = scheduleWord v t h := by
  unfold scheduleWord
  rw [e (t - 3) (by omega) (by omega), e (t - 8) (by omega) (by omega), e (t - 14) (by omega) (by omega),
    e (t - 16) (by omega) (by omega)]

/-- Extending from `t` on leaves every word before `t`. -/
theorem expandFrom_before (n : Nat) {t i : Nat} (w : Vector Word 80) (hi : i < 80) (h : i < t) :
    (expandFrom n t w)[i] = w[i] := by
  induction n generalizing t w with
  | zero => rfl
  | succ n ih => rw [expandFrom, ih _ (by omega), expandAt_other _ _ (by omega)]

theorem placeParsed_parsed (blk : Block) (rest : Vector Word 80) {t : Nat} (h : t < 16) :
    (placeParsed blk rest)[t] = parseWord blk ⟨t, h⟩ := by
  simp [placeParsed, h]

/-! The engine (R103, R105). -/

theorem engine_round_of_lt (g : Engine) (h : g.t.val < 80) :
    g.round = ⟨workRound g.t.val g.work (expandAt g.w g.t.val)[g.t.val], expandAt g.w g.t.val,
      ⟨g.t.val + 1, by omega⟩⟩ := by
  unfold Engine.round
  exact dif_pos h

/-- The last of `n + 1` micro-steps comes after the first `n`. -/
theorem engine_rounds_succ (n : Nat) (g : Engine) : Engine.rounds (n + 1) g = (Engine.rounds n g).round := by
  induction n generalizing g with
  | zero => rfl
  | succ n ih => rw [Engine.rounds, ih, ← Engine.rounds]

/-- What holds of the engine after any number `n <= 80` of rounds holds of a whole run with `n = 80`; the eighty
rounds are never unrolled. -/
theorem engine_run_of_rounds {h : Hash} {blk : Block} {g : Engine} {P : Nat → Engine → Prop}
    (e : ∀ n, n ≤ 80 → P n (Engine.rounds n (Engine.load h blk g))) : P 80 (Engine.run h blk g) := by
  have := e 80 (Nat.le_refl 80)
  unfold Engine.run
  exact this

/-- `Compress` opened, for a proof that has to say what the eighty rounds are. -/
theorem compress_open (h : Hash) (blk : Block) : ∃ n, ∃ hn : n ≤ 80, n = 80 ∧
    compress h blk = fold h (roundsTo (schedule blk) n hn (loadWork h)) := by
  refine ⟨80, Nat.le_refl 80, rfl, ?_⟩
  unfold compress
  rfl

/-! Absorbing a list of bytes into a context (R79, R124). -/

@[simp] theorem absorbBytes_nil (c : Context) : c.absorbBytes [] = c := rfl

@[simp] theorem absorbBytes_cons (c : Context) (d : Byte) (rest : List Byte) :
    c.absorbBytes (d :: rest) = (c.absorbByte d).absorbBytes rest := rfl

theorem absorbBytes_append (c : Context) (l m : List Byte) :
    c.absorbBytes (l ++ m) = (c.absorbBytes l).absorbBytes m := List.foldl_append

@[simp] theorem context_absorbByte_len (c : Context) (d : Byte) : (c.absorbByte d).len = countByte c.len := rfl
@[simp] theorem context_absorbByte_buf (c : Context) (d : Byte) :
    (c.absorbByte d).buf = storeByte c.buf (occupancy c.len) d := rfl

/-- Absorbing `l` adds eight bits a byte to the counter (R123). -/
theorem absorbBytes_len (c : Context) (l : List Byte) :
    (c.absorbBytes l).len = c.len + BitVec.ofNat 64 (8 * l.length) := by
  induction l generalizing c with
  | nil => simp
  | cons d l ih =>
    rw [absorbBytes_cons, ih, context_absorbByte_len, countByte, List.length_cons]
    apply BitVec.eq_of_toNat_eq
    have h8 : (8 : Dword).toNat = 8 := rfl
    simp only [BitVec.toNat_add, BitVec.toNat_ofNat, h8]
    omega

/-! The finalizer, position by position (R152). -/

theorem finalizerStep_of_marker {s : State} (h : s.fstep = .marker) :
    s.finalizerStep = { s.absorbByte 0x80 with fstep := .zeroFill } := by
  simp only [State.finalizerStep, h]

theorem finalizerStep_of_zero {s : State} (h : s.fstep = .zeroFill) (hn : (occupancy s.len).val ≠ 56) :
    s.finalizerStep = s.absorbByte 0x00 := by
  simp [State.finalizerStep, h, fillDone, hn]

theorem finalizerStep_of_filled {s : State} (h : s.fstep = .zeroFill) (hn : (occupancy s.len).val = 56) :
    s.finalizerStep = { s with fstep := .lengthByte 0 } := by
  simp [State.finalizerStep, h, fillDone, hn]

theorem finalizerStep_of_lengthByte {s : State} {i : Fin 8} (h : s.fstep = .lengthByte i) :
    s.finalizerStep = { s.absorbByte (ser64Byte s.fc i) with fstep := FStep.afterLengthByte i } := by
  simp only [State.finalizerStep, h]

/-- The whole run opened, for a proof that has to say where its steps lead. -/
theorem runFinalizer_open (s : State) : ∃ n, n = 73 ∧ s.runFinalizer = State.finalizerSteps n s.capture := by
  refine ⟨73, rfl, ?_⟩
  unfold State.runFinalizer
  rfl

end Sys2Proof.Machine
end

