-- ==== Sys2Proof/Laws/PerInstr.lean ====
section
/-!
SUPPORT. Statements about every command as syntax, one lemma per constructor: the canonical word of a command lies in
the command's own row of the opcode table (30_encoding.md rule R72).
-/

namespace Sys2Proof.Laws.EncodesInRow

/-- The canonical word of `i`, under the mask, is its row's `match`. -/
def Statement (i : Instr) : Prop := encode i &&& rowMask = rowMatch i

theorem init : Statement .init := by unfold Statement; decide

theorem absb (d : Byte) : Statement (.absb d) := by
  have h : ∀ d : Byte, encode (.absb d) &&& rowMask = rowMatch (.absb d) := by decide
  exact h d

theorem final : Statement .final := by unfold Statement; decide

theorem reserved : Statement .reserved := by unfold Statement; decide

end Sys2Proof.Laws.EncodesInRow
end

