-- ==== Sys2Proof/Laws/Step.lean ====
section
/-!
SUPPORT. What each command and each step can do, said once. A proof about every step cites `step_cases` and then the
equation of the command.
-/

namespace Sys2Proof.Machine

@[simp] theorem exec_init (s : State) : exec .init s = .next s.openMessage := rfl
@[simp] theorem exec_absb (d : Byte) (s : State) : exec (.absb d) s = .next (s.inReady (State.absorbByte d)) := rfl
@[simp] theorem exec_final (s : State) : exec .final s = .next (s.inReady State.finalize) := rfl
@[simp] theorem exec_reserved (s : State) : exec .reserved s = .next (s.reject .eRsvd) := rfl

/-- Everything a step can do: the reset event, an accepted command, or nothing (R180, R185, R188). -/
theorem step_cases {s t : State} (h : step s = .next t) :
    (s.portIn.rst = true ∧ t = s.pastEdge.resetEvent) ∨
    (s.portIn.rst = false ∧ s.portIn.cmdValid = true ∧ s.busy = false ∧
      exec (decode s.portIn.cmd) s.pastEdge = .next t) ∨
    (s.portIn.rst = false ∧ (s.portIn.cmdValid = false ∨ s.busy = true) ∧ t = s.pastEdge) := by
  unfold step at h
  rcases sample_cases s with ⟨hr, e⟩ | ⟨hr, hv, hb, e⟩ | ⟨hr, hn, e⟩ <;> rw [e] at h
  · exact .inl ⟨hr, (Host.Outcome.next.inj h).symm⟩
  · exact .inr (.inl ⟨hr, hv, hb, h⟩)
  · exact .inr (.inr ⟨hr, hn, (Host.Outcome.next.inj h).symm⟩)

/-- A run of a machine whose first step answers goes on from there. -/
theorem run_succ_of_next (M : Host.Core) {s t : M.State} (h : M.step s = .next t) (n : Nat) :
    M.run (n + 1) s = M.run n t := by
  rw [Host.Core.run, h]

/-- The same of this machine, in the model's own names. -/
theorem core_run_succ {s t : State} (h : step s = .next t) (n : Nat) :
    Host.Core.run core (n + 1) s = Host.Core.run core n t :=
  run_succ_of_next core h n

end Sys2Proof.Machine
end

