-- ==== Sys2Proof/Tests/Slice0.lean ====
section
/-!
SUPPORT. The model's own tests. Expected values come from spec/95_test_vectors.md (the vector is named) or from the
rule named; none from running the model. First decoding and well-formedness, then at most two tests per command and a
few of the compression step, then a witness for each statement that has hypotheses.
-/

namespace Sys2Proof.Tests

open Sys2Proof Sys2Proof.Machine

/-! ## Decoding (V17; the words are written bit by bit from R70 and R72: `op`, then `data`) -/

theorem test_decode_init : decode 0b00_00000000#10 = .init ∧ decode 0b00_10100101#10 = .init := by decide
theorem test_decode_absb : decode 0b01_01100001#10 = .absb 0x61 ∧ decode 0b01_10000000#10 = .absb 0x80 := by decide
theorem test_decode_final : decode 0b10_00000000#10 = .final ∧ decode 0b10_11111111#10 = .final := by decide
theorem test_decode_reserved : decode 0b11_00000000#10 = .reserved ∧ decode 0b11_01010101#10 = .reserved := by decide
theorem test_decode_not_ten_bits : decodeNat 1024 = .error .notTenBits ∧ decodeTableWord 16 0x400 = none := by decide
theorem test_decode_table_word : decodeTableWord 16 0x161 = some (.absb 0x61) ∧ decodeTableWord 10 0x300 = some .reserved := by
  decide
/-- R78: what the assembler emits for the three mnemonics. -/
theorem test_encode : encode .init = 0x000 ∧ encode (.absb 0x61) = 0x161 ∧ encode .final = 0x200 := by decide

/-! ## Well-formedness: the ill-formed terms the spec names are the assembler's (R78, R79); one for each check -/

theorem test_illformed_absb : (AsmItem.absb 256).wellFormed = false ∧ (AsmItem.absb 255).wellFormed = true := by decide
theorem test_illformed_word : (AsmItem.word 1024).wellFormed = false ∧ (AsmItem.word 1023).wellFormed = true := by decide
theorem test_illformed_text :
    (AsmItem.absorbText [Char.ofNat 9]).wellFormed = false ∧ (AsmItem.hashText [Char.ofNat 200]).wellFormed = false := by
  decide
theorem test_illformed_bytes :
    (AsmItem.absorbBytes [0, 256]).wellFormed = false ∧ (AsmItem.hashBytes [300]).wellFormed = false ∧
      (AsmItem.absorbTimes 256 2).wellFormed = false := by decide
/-- Every command is well-formed: `Instr` has no ill-formed term (R76). -/
theorem test_wellformed_commands : Instr.wellFormed .init = true ∧ Instr.wellFormed (.absb 0xff) = true ∧
    Instr.wellFormed .final = true ∧ Instr.wellFormed .reserved = true := by decide

/-! ## The listing notation (P2, P3, R79) -/

theorem test_line_word : parseLine ".word 0x3ff           # 3ff  rejected".toList = .item (.word 0x3ff) := by
  decide
theorem test_line_times : parseLine "ABSORB 0x61 * 64".toList = .item (.absorbTimes 0x61 64) := by decide
theorem test_hash_abc : assemble [.hashText "abc".toList] =
    some [.accept 0x000, .accept 0x161, .accept 0x162, .accept 0x163, .accept 0x200] := by decide

/-! ## Commands: one step each on a small state -/

/-- A context opened by INIT, with the counter and the buffer set (the way V12 to V15 set them). -/
def readyWith (len : Dword) (fill : Byte) : State :=
  { State.reset with phase := .ready, h := iv, len := len, buf := Vector.replicate 64 fill }

/-- The same context closed. -/
def closedWith (len : Dword) : State := { readyWith len 0 with phase := .finalized }

/-- Whether the outcome is a next state with the property. -/
def nextHas (o : Host.Outcome State Fault Refusal) (p : State → Bool) : Bool :=
  match o with
  | .next t => p t
  | .fault _ => false
  | .refused _ => false

/-- V18 row 10: INIT in `P_FINALIZED` with `ERR = 1` executes, and `ERR` stays 1. -/
theorem test_init_reopens : nextHas (exec .init { closedWith 0x200 with err := true }) (fun t =>
    t.phase == .ready && t.len == 0 && t.err && !t.dvalid &&
      t.h == ⟨0x67452301, 0xefcdab89, 0x98badcfe, 0x10325476, 0xc3d2e1f0⟩) = true := by decide
/-- V18 row 4, as the first step after reset. -/
theorem test_init_first : nextHas (step (State.reset.withFetchWord 16 0x000)) (fun t =>
    t.phase == .ready && t.len == 0 && !t.err) = true := by decide
/-- V12: the 64th byte carries into the high half of `LEN` and triggers one compression step. -/
theorem test_absb_carry : nextHas (exec (.absb 0x55) (readyWith 0x00000000fffffff8 0x55)) (fun t =>
    t.len == 0x0000000100000000 && t.phase == .ready &&
      t.h == ⟨0xbe0db550, 0xd9c69dd9, 0xa4622c63, 0x1abb5c9f, 0xa419a0c1⟩) = true := by decide +kernel
/-- V18 row 1: ABSB before INIT is rejected and drops its byte. -/
theorem test_absb_uninit : nextHas (step (State.reset.withFetchWord 16 0x161)) (fun t =>
    t.err && t.phase == .uninit && t.buf == State.reset.buf && t.len == State.reset.len) = true := by decide
/-- V15: the length field uses both halves of the captured counter. -/
theorem test_final_both_halves : nextHas (exec .final (readyWith 0x0000000100000000 0)) (fun t =>
    t.len == 0x0000000100000200 && t.phase == .finalized &&
      t.h == ⟨0xe1f40073, 0x3164ed16, 0x42437ffc, 0xe12ecd02, 0x4ac97ef2⟩) = true := by decide +kernel
/-- V1: the empty message, the document's own literal digest. -/
theorem test_final_empty : nextHas (exec .final (readyWith 0 0)) (fun t =>
    t.readDigest.toOption == some 0xda39a3ee5e6b4b0d3255bfef95601890afd80709) = true := by decide +kernel
/-- V18 row 9: a reserved word in `P_FINALIZED` is `E_RSVD`, not `E_CLOSED`, and leaves the digest. -/
theorem test_reserved_closed : nextHas (exec .reserved (closedWith 0x200)) (fun t => t.err && t.dvalid) = true ∧
    rejectReason .reserved .finalized = some .eRsvd := by decide
/-- V18 row 3: as the first step after reset. -/
theorem test_reserved_first : nextHas (step (State.reset.withFetchWord 16 0x300)) (fun t =>
    t.err && t.phase == .uninit) = true := by decide

/-! ## The compression step -/

/-- V7, the row that holds all eight combinations of one bit. -/
theorem test_stage_functions : choose 0xaaaaaaaa 0xcccccccc 0xf0f0f0f0 = 0xd8d8d8d8 ∧
    parity 0xaaaaaaaa 0xcccccccc 0xf0f0f0f0 = 0x96969696 ∧ majority 0xaaaaaaaa 0xcccccccc 0xf0f0f0f0 = 0xe8e8e8e8 := by
  decide
/-- V3: rounds 20 and 40 of the "abc" block, the first of their stages. -/
theorem test_rounds_at_stage_changes :
    (workRound 20 ⟨0xfd9e1d7d, 0xdc64901d, 0x20aa99ca, 0xd3a49608, 0xc82f758b⟩ 0x00000000).a = 0x1a37b0ca ∧
      (workRound 40 ⟨0x32de1cba, 0x4c986405, 0xf718e5cf, 0x03d447f6, 0xf72eec32⟩ 0xd2e138c4).a = 0xfc87dedf := by
  decide
/-- V9: the block of `ff` bytes, where carries are dropped and the schedule is not constant. -/
theorem test_compress_ones : compress iv (Vector.replicate 64 0xff) =
    ⟨0xbafbc2c8, 0x7c333226, 0x03f38e06, 0xc3e0f79c, 0x1f1b1475⟩ := by decide +kernel

/-! ## A witness for each statement with hypotheses: a concrete state and operands that meet them together, at the
boundary values of each clause -/

/-- CORE idle in `P_READY`, with these samples to come. -/
def offered (l : List PortIn) : State := { readyWith 0 0 with inputs := l }

theorem witness_EveryStepKeepsTheInvariant :
    State.reset.Inv ∧ (readyWith 8 0).Inv ∧ (closedWith 0x200).Inv ∧
      nextHas (step (offered [PortIn.offer 0x161])) (fun _ => true) = true := by decide
theorem witness_ResetEdgeIsTheResetEvent :
    (offered [PortIn.reset, PortIn.reset]).portIn.rst = true ∧
      nextHas (step (offered [PortIn.reset, PortIn.reset])) (fun t => t.portIn.rst) = true ∧
      nextHas (step (offered [PortIn.reset])) (fun t => !t.portIn.rst) = true := by decide
theorem witness_ResetForgetsWhatWasInProgress :
    let s := offered [PortIn.reset]
    let t := { s with busy := true, len := 8, phase := .finalized }
    s ≠ t ∧ s.portIn.rst = true ∧ s.inputs = t.inputs ∧ s.free = t.free := by decide
theorem witness_StepRunsTheDecodedCommand :
    let s := offered [PortIn.offer 0x161]
    s.portIn.rst = false ∧ s.portIn.cmdValid = true ∧ s.busy = false ∧
      decodeTableWord 16 0x3ff = some .reserved := by decide
theorem witness_OnlyAcceptedWordsHaveAnEffect :
    (offered [PortIn.offer 0x161]).portIn.cmdValid = true ∧ (offered [PortIn.offer 0x161]).cmdReady = true ∧
      (offered []).portIn.cmdValid = false ∧ (offered []).portIn.rst = false ∧
      (offered [PortIn.reset]).cmdReady = false ∧ (offered [PortIn.reset]).portIn.rst = true ∧
      ({ offered [PortIn.offer 0x161] with busy := true } : State).cmdReady = false := by decide
theorem witness_PausesChangeNothing :
    (offered []).inputs = [] ∧ State.reset.inputs = [] ∧
      ∀ p ∈ [PortIn.idle, { PortIn.idle with cmd := 0x3ff }], p.rst = false ∧ p.cmdValid = false := by decide
theorem witness_CommandsRunInOrder : (readyWith 0 0).busy = false ∧ State.reset.busy = false := by decide
theorem witness_EveryStepAnswers : State.reset.busy = false := by decide
theorem witness_DecodeAndEncodeAgree :
    (Instr.absb 0xff).wellFormed = true ∧ decode 0x1ff = .absb 0xff ∧ 0x1ff#10 &&& rowMask = rowMatch (.absb 0xff) := by decide
theorem witness_EveryWordSelectsOneRow : 0x3ff#10 &&& 0x300#10 = 0x300#10 ∧ 0x0ff#10 &&& 0x300#10 = 0x000#10 := by decide
theorem witness_IgnoredDataMakesNoDifference :
    (0x0ff#10).toNat ≤ 0x0ff ∧ 0x200 ≤ (0x200#10).toNat ∧ 0x200 ≤ (0x2ff#10).toNat ∧ (0x2ff#10).toNat ≤ 0x2ff := by decide
theorem witness_WhatRepeatingACommandDoes :
    nextHas (exec .init State.reset) (fun _ => true) = true ∧
      (rejectReason .final State.reset.phase).isSome = true ∧
      nextHas (exec .final State.reset) (fun _ => true) = true ∧
      (readyWith 0 0).phase = .ready ∧ nextHas (exec .final (readyWith 0 0)) (fun _ => true) = true ∧
      nextHas (exec (.absb 1) (readyWith 504 0)) (fun t => nextHas (exec (.absb 2) t) fun _ => true) = true := by
  decide
theorem witness_AbsbInReadyAbsorbsTheByte :
    (readyWith 504 0).phase = .ready ∧ (occupancy (readyWith 504 0).len).val = 63 ∧
      (readyWith 496 0).phase = .ready ∧ (occupancy (readyWith 496 0).len).val = 62 ∧
      (0 : Fin 64) ≠ occupancy (readyWith 504 0).len := by decide
theorem witness_CounterCarriesIntoTheHighHalf :
    (readyWith 0xfffffff8 0).phase = .ready ∧ (readyWith 0xfffffff8 0).len.extractLsb' 0 3 = 0 ∧ 2 ^ 32 ≤ (lenLo (readyWith 0xfffffff8 0).len).toNat + 8 ∧
      (lenLo (readyWith 0xfffffff0 0).len).toNat + 8 < 2 ^ 32 := by decide
theorem witness_FinalInReadyAbsorbsThePadding :
    (readyWith 440 0).phase = .ready ∧ (occupancy (readyWith 440 0).len).val = 55 ∧
      (54 : Fin 64) < occupancy (readyWith 440 0).len ∧
      (readyWith 448 0).phase = .ready ∧ (occupancy (readyWith 448 0).len).val = 56 := by decide
theorem witness_ZeroFillStopsAtOccupancy56 :
    55 = zeroCount (occupancy (readyWith 0 0).len).val ∧ 0 = zeroCount (occupancy (readyWith 440 0).len).val ∧
      63 = zeroCount (occupancy (readyWith 448 0).len).val ∧ (0 : Dword).extractLsb' 0 3 = 0 ∧
      (440 : Dword).extractLsb' 0 3 = 0 ∧ (448 : Dword).extractLsb' 0 3 = 0 := by decide
theorem witness_LengthBytesEndTheLastBlock :
    (readyWith 24 0).phase = .ready ∧ (readyWith 24 0).len.extractLsb' 0 3 = 0 ∧
      (readyWith 504 0).phase = .ready ∧ (readyWith 504 0).len.extractLsb' 0 3 = 0 := by decide
theorem witness_FinalRunsOneOrTwoCompressionSteps :
    (readyWith 440 0).phase = .ready ∧ 1 = (if (occupancy (readyWith 440 0).len).val ≤ 55 then 1 else 2) ∧
      (readyWith 448 0).phase = .ready ∧ 2 = (if (occupancy (readyWith 448 0).len).val ≤ 55 then 1 else 2) := by decide
theorem witness_FinalLeavesAWholeNumberOfBlocks :
    (readyWith 440 0).phase = .ready ∧ (readyWith 440 0).len.extractLsb' 0 3 = 0 ∧
      (readyWith 448 0).len.extractLsb' 0 3 = 0 := by decide
theorem witness_ReservedIsRejectedInEveryPhase :
    0x300 ≤ (0x300#10).toNat ∧ 0x300 ≤ (0x3ff#10).toNat ∧ State.reset.err = false := by decide
theorem witness_RejectReasonsAndCodes :
    (rejectReason .reserved (closedWith 0).phase).isSome = true ∧
      (rejectReason (.absb 0) (closedWith 0).phase).isSome = true := by decide
theorem witness_RejectSetsErrAndNothingElse :
    (rejectReason .reserved (readyWith 0 0).phase).isSome = true ∧
      (rejectReason (.absb 0) State.reset.phase).isSome = true ∧
      (rejectReason .final (closedWith 0).phase).isSome = true := by decide
theorem witness_ErrRecordsRejectsUntilReset :
    nextHas (step (offered [PortIn.reset])) (fun _ => true) = true ∧ (offered [PortIn.reset]).portIn.rst = true ∧
      nextHas (step (offered [PortIn.offer 0x300])) (fun _ => true) = true ∧
      (offered [PortIn.offer 0x300]).portIn.rst = false := by decide
theorem witness_ErrChangesNoBehaviour : nextHas (exec (.absb 7) (readyWith 0 0)) (fun _ => true) = true := by
  decide
theorem witness_OnlyResetReturnsToUninit :
    let s := { offered [PortIn.reset] with err := true }
    s.phase ≠ .uninit ∧ s.err = true ∧ s.portIn.rst = true ∧
      nextHas (step s) (fun t => t.phase == .uninit && !t.err) = true := by decide
theorem witness_DigestPortShowsTheDigestBytes : 19 < 20 ∧ 4 < 5 ∧ 3 < 4 := by decide
theorem witness_DigestIsReadableExactlyWhenValid :
    (closedWith 0x200).dvalid = true ∧ (readyWith 0 0).dvalid = false := by decide
theorem witness_DigestStaysUntilInitOrReset :
    let s := fun p => { closedWith 0x200 with inputs := [p] }
    (s PortIn.idle).phase = .finalized ∧ (s PortIn.idle).busy = false ∧ (s PortIn.reset).sample = .reset ∧
      ((s (PortIn.offer 0x0a5)).sample = .accept 0x0a5 ∧ decode 0x0a5 = .init) ∧
      ((s (PortIn.offer 0x161)).sample = .accept 0x161 ∧ decode 0x161 ≠ .init) := by decide
theorem witness_ScheduleSatisfiesItsRecurrence :
    (16 ≤ 16 ∧ 16 < 80) ∧ (16 ≤ 79 ∧ 79 < 80) ∧ ∀ k : Fin 64, (Vector.replicate 64 (0 : Byte))[k] = 0 := by
  refine ⟨by decide, by decide, fun k => ?_⟩
  simp
theorem witness_ChunkAlgorithmEqualsItsBytes : (readyWith 480 0).phase = .ready ∧ (readyWith 480 0).busy = false := by decide
theorem witness_OpenMessageStateIsDetermined :
    (closedWith 0x200).busy = false ∧ ([0x61, 0x62] : List Byte).length < 2 ^ 61 ∧ 1 < ([0x61, 0x62] : List Byte).length % 64 := by
  decide
theorem witness_MessageDigestIsTheClosedForm :
    (closedWith 0x200).busy = false ∧ ([0x61, 0x62, 0x63] : List Byte).length < 2 ^ 61 := by decide
/-- Two instances that agree though their hidden registers and stale bytes do not. -/
theorem witness_HiddenStateNeverMatters :
    let s := readyWith 8 0
    let t := { s with fc := 9, fstep := .done, free := 7, buf := s.buf.set 1 5 }
    s ≠ t ∧ s.SameTo t := by decide
theorem witness_ListingEmitsTheCommands :
    (∀ b ∈ [0, 255], b ≤ 255) ∧ (∃ b ∈ [0, 256], 255 < b) ∧
      (∀ c ∈ [' ', '~'], 32 ≤ c.toNat ∧ c.toNat ≤ 126 ∧ c.toNat ≠ 34) ∧
      (∃ c ∈ [Char.ofNat 31, 'a'], c.toNat < 32 ∨ 126 < c.toNat) ∧
      (∃ c ∈ ['a', Char.ofNat 127], c.toNat < 32 ∨ 126 < c.toNat) := by
  refine ⟨by simp, ⟨256, by simp, by decide⟩, ?_, ⟨Char.ofNat 31, by simp, by decide⟩,
    ⟨Char.ofNat 127, by simp, by decide⟩⟩
  intro c hc
  rcases List.mem_pair.mp hc with rfl | rfl <;> decide

end Sys2Proof.Tests
end

section
/-!
PROOFS. The transition table of `PHASE` (10_state.md rule R27): the reject of each command as an equation, then each
entry from what the guard of ABSB and FINAL does in its phase.
-/

namespace Sys2Proof.Machine

/-! `rejectReason`: INIT never, the reserved operation always, ABSB and FINAL by the phase check (R161). -/

@[simp] theorem rejectReason_init (p : Phase) : rejectReason .init p = none := rfl
@[simp] theorem rejectReason_absb (d : Byte) (p : Phase) : rejectReason (.absb d) p = phaseReject p := rfl
@[simp] theorem rejectReason_final (p : Phase) : rejectReason .final p = phaseReject p := rfl
@[simp] theorem rejectReason_reserved (p : Phase) : rejectReason .reserved p = some .eRsvd := rfl

@[simp] theorem phaseReject_uninit : phaseReject .uninit = some .eUninit := rfl
@[simp] theorem phaseReject_ready : phaseReject .ready = none := rfl
@[simp] theorem phaseReject_finalized : phaseReject .finalized = some .eClosed := rfl

/-- ABSB leaves `PHASE` as it is, absorbed or rejected (R122, R162). -/
theorem inReady_absorbByte_phase (d : Byte) (s : State) :
    (s.inReady (State.absorbByte d)).phase = s.phase := by
  rcases inReady_cases s (State.absorbByte d) with ⟨-, e⟩ | ⟨-, e⟩ <;> simp [e]

/-- Settles O26: each command's next state is named, and the entries of ABSB and FINAL follow phase by phase, from
the guard they share. -/
theorem phaseFollowsItsTable : Obligations.PhaseFollowsItsTable := by
  refine ⟨rfl, fun s i => ?_⟩
  cases i with
  | init => exact ⟨_, exec_init s, s.openMessage_phase, rejectReason_init _⟩
  | absb d =>
    refine ⟨_, exec_absb d s, ?_⟩
    have hp := inReady_absorbByte_phase d s
    cases h : s.phase with
    | uninit => exact ⟨hp.trans h, rfl, by simp [inReady_of_uninit _ h]⟩
    | ready => exact ⟨hp.trans h, rfl⟩
    | finalized => exact ⟨hp.trans h, rfl, by simp [inReady_of_finalized _ h]⟩
  | final =>
    refine ⟨_, exec_final s, ?_⟩
    cases h : s.phase with
    | uninit => simp [inReady_of_uninit _ h, h]
    | ready => simp [inReady_of_ready _ h]
    | finalized => simp [inReady_of_finalized _ h, h]
  | reserved => exact ⟨_, exec_reserved s, s.reject_phase _, rejectReason_reserved _, s.reject_err _⟩

end Sys2Proof.Machine
end

section
/-!
PROOFS. Byte order (20_memory.md rules R51 to R53): the value of `BE32` as a weighted sum, from which `BE32` and
`Ser32` undo each other, the words `Parse` reads, and `Ser64` by its bytes and by its two halves.
-/

namespace Sys2Proof.Machine

/-! Bytes of a word: one more at the right end, one cut out, and one cut out of a field. -/

theorem toNat_append_byte {n : Nat} (x : BitVec n) (b : Byte) : (x ++ b).toNat = x.toNat * 2 ^ 8 + b.toNat := by
  rw [BitVec.toNat_append, ← Nat.shiftLeft_add_eq_or_of_lt b.isLt, Nat.shiftLeft_eq]

theorem toNat_extractLsb'_div {n : Nat} (x : BitVec n) (start len : Nat) :
    (x.extractLsb' start len).toNat = x.toNat / 2 ^ start % 2 ^ len := by
  rw [BitVec.extractLsb'_toNat, Nat.shiftRight_eq_div_pow]

theorem extractLsb'_of_extractLsb' {n : Nat} (x : BitVec n) {start len base width : Nat} (h : start + len ≤ width) :
    (x.extractLsb' base width).extractLsb' start len = x.extractLsb' (base + start) len := by
  ext k hk
  have hin : start + k < width := by omega
  simp [hin, Nat.add_assoc]

/-! `BE32` and `Ser32` (R51, R52). -/

theorem be32_toNat (b0 b1 b2 b3 : Byte) :
    (be32 b0 b1 b2 b3).toNat = b0.toNat * 2 ^ 24 + b1.toNat * 2 ^ 16 + b2.toNat * 2 ^ 8 + b3.toNat := by
  simp only [be32, toNat_append_byte]
  omega

/-- The slices of a word are the digits of its value to the base `2 ^ 8`, most significant first. -/
theorem be32_slices (w : Word) :
    be32 (w.extractLsb' 24 8) (w.extractLsb' 16 8) (w.extractLsb' 8 8) (w.extractLsb' 0 8) = w := by
  apply BitVec.eq_of_toNat_eq
  simp only [be32_toNat, toNat_extractLsb'_div]
  omega

/-- The digits of a value to the base `2 ^ 8` are determined by it. -/
theorem be32_inj {a0 a1 a2 a3 b0 b1 b2 b3 : Byte} (h : be32 a0 a1 a2 a3 = be32 b0 b1 b2 b3) :
    a0 = b0 ∧ a1 = b1 ∧ a2 = b2 ∧ a3 = b3 := by
  have hv := congrArg BitVec.toNat h
  simp only [be32_toNat] at hv
  refine ⟨?_, ?_, ?_, ?_⟩ <;> bv_omega

/-- `Ser32` undoes `BE32`: its slices put together give the same word again, so they are the same bytes. -/
theorem ser32_be32 (b0 b1 b2 b3 : Byte) : ser32 (be32 b0 b1 b2 b3) = [b0, b1, b2, b3] := by
  obtain ⟨h0, h1, h2, h3⟩ := be32_inj (be32_slices (be32 b0 b1 b2 b3))
  rw [ser32, h0, h1, h2, h3]

/-! `Parse` (R92) and `Ser64` (R53). -/

theorem parse_getElem (blk : Block) (i : Fin 16) : (parse blk)[i] = parseWord blk i := by
  simp [parse]

@[simp] theorem ser64_length (v : Dword) : (ser64 v).length = 8 := List.length_ofFn

theorem ser64_getElem? (v : Dword) {i : Nat} (h : i < 8) :
    (ser64 v)[i]? = some (v.extractLsb' (56 - 8 * i) 8) := by
  rw [ser64, List.getElem?_ofFn, dif_pos h, ser64Byte]

/-- `Ser64` is the high half serialized, then the low half: a slice of a half is a slice of the whole. -/
theorem ser64_eq_halves (v : Dword) : ser64 v = ser32 (lenHi v) ++ ser32 (lenLo v) := by
  simp [ser64, ser64Byte, ser32, lenHi, lenLo, extractLsb'_of_extractLsb']

/-- Settles O39: `BE32`, `Parse`, `Ser32` and `Ser64`, each by its own lemmas. -/
theorem byteOrderIsBigEndian : Obligations.ByteOrderIsBigEndian :=
  ⟨fun b0 b1 b2 b3 => ⟨rfl, be32_toNat b0 b1 b2 b3, ser32_be32 b0 b1 b2 b3⟩, parse_getElem,
    fun w => ⟨rfl, be32_slices w⟩, fun v => ⟨ser64_length v, fun _ => ser64_getElem? v, ser64_eq_halves v⟩⟩

end Sys2Proof.Machine
end

section
/-!
PROOFS. The encoding (30_encoding.md rules R71 to R75): the row of a word, by its operation code, its value and its
masked bits; and which edges execute a word, so that an ignored data byte and an unaccepted word make no difference.
-/

namespace Sys2Proof.Machine

/-! The row of a word (R72, R76). -/

theorem opField_toNat (c : CmdWord) : (opField c).toNat = c.toNat / 0x100 := by
  have hc := c.isLt
  rw [opField, toNat_extractLsb'_div]
  omega

theorem opField_eq_of_toNat {c : CmdWord} {op : BitVec 2} (h : c.toNat / 0x100 = op.toNat) : opField c = op :=
  BitVec.eq_of_toNat_eq ((opField_toNat c).trans h)

/-- A word is its two fields (R70). -/
theorem opField_append_dataField (c : CmdWord) : opField c ++ dataField c = c := by
  apply BitVec.eq_of_toNat_eq
  have hc := c.isLt
  rw [toNat_append_byte, opField_toNat, dataField, toNat_extractLsb'_div]
  omega

/-- The four rows as ranges of words, in the order of the table. -/
theorem decode_rows (c : CmdWord) :
    (c.toNat ≤ 0x0ff ∧ opField c = 0b00#2 ∧ decode c = .init) ∨
    (0x100 ≤ c.toNat ∧ c.toNat ≤ 0x1ff ∧ opField c = 0b01#2 ∧ decode c = .absb (dataField c)) ∨
    (0x200 ≤ c.toNat ∧ c.toNat ≤ 0x2ff ∧ opField c = 0b10#2 ∧ decode c = .final) ∨
    (0x300 ≤ c.toNat ∧ opField c = 0b11#2 ∧ decode c = .reserved) := by
  have hc := c.isLt
  have hrange : c.toNat ≤ 0x0ff ∨ (0x100 ≤ c.toNat ∧ c.toNat ≤ 0x1ff) ∨
      (0x200 ≤ c.toNat ∧ c.toNat ≤ 0x2ff) ∨ 0x300 ≤ c.toNat := by omega
  rcases hrange with h | ⟨h, h'⟩ | ⟨h, h'⟩ | h
  · have hop : opField c = 0b00#2 := opField_eq_of_toNat (by bv_omega)
    exact .inl ⟨h, hop, by simp [decode, hop]⟩
  · have hop : opField c = 0b01#2 := opField_eq_of_toNat (by bv_omega)
    exact .inr (.inl ⟨h, h', hop, by simp [decode, hop]⟩)
  · have hop : opField c = 0b10#2 := opField_eq_of_toNat (by bv_omega)
    exact .inr (.inr (.inl ⟨h, h', hop, by simp [decode, hop]⟩))
  · have hop : opField c = 0b11#2 := opField_eq_of_toNat (by bv_omega)
    exact .inr (.inr (.inr ⟨h, hop, by simp [decode, hop]⟩))

theorem decode_of_init_row {c : CmdWord} (h : c.toNat ≤ 0x0ff) : decode c = .init := by
  rcases decode_rows c with ⟨-, -, e⟩ | ⟨_, -⟩ | ⟨_, -⟩ | ⟨_, -⟩
  · exact e
  all_goals omega

theorem decode_of_final_row {c : CmdWord} (h : 0x200 ≤ c.toNat) (h' : c.toNat ≤ 0x2ff) : decode c = .final := by
  rcases decode_rows c with ⟨_, -⟩ | ⟨-, _, -⟩ | ⟨-, -, -, e⟩ | ⟨_, -⟩
  case inr.inr.inl => exact e
  all_goals omega

theorem decode_of_reserved_row {c : CmdWord} (h : 0x300 ≤ c.toNat) : decode c = .reserved := by
  rcases decode_rows c with ⟨_, -⟩ | ⟨-, _, -⟩ | ⟨-, _, -⟩ | ⟨-, -, e⟩
  case inr.inr.inr => exact e
  all_goals omega

/-- The mask keeps the operation code and clears the data field. -/
theorem and_rowMask (c : CmdWord) : c &&& rowMask = opField c ++ 0#8 := by
  have hmask : rowMask = BitVec.allOnes 2 ++ 0#8 := rfl
  calc
    c &&& rowMask = (opField c ++ dataField c) &&& (BitVec.allOnes 2 ++ 0#8) := by
      rw [opField_append_dataField, hmask]
    _ = opField c ++ 0#8 := by rw [BitVec.and_append, BitVec.and_allOnes, BitVec.and_zero]

theorem and_rowMask_eq_rowMatch (c : CmdWord) : c &&& rowMask = rowMatch (decode c) := by
  rw [and_rowMask]
  rcases decode_rows c with ⟨-, hop, e⟩ | ⟨-, -, hop, e⟩ | ⟨-, -, hop, e⟩ | ⟨-, hop, e⟩ <;> rw [hop, e] <;> rfl

theorem rowMatch_mem (i : Instr) : rowMatch i ∈ [0x000#10, 0x100#10, 0x200#10, 0x300#10] := by
  cases i <;> simp [rowMatch]

/-- Settles O12: the one `match` that a masked word equals is that of the row of its own command. -/
theorem everyWordSelectsOneRow : Obligations.EveryWordSelectsOneRow :=
  ⟨rfl, rfl, fun _ => rfl, rfl, rfl,
    fun c => ⟨rowMatch (decode c), rowMatch_mem _, and_rowMask_eq_rowMatch c,
      fun _ _ hm => hm.symm.trans (and_rowMask_eq_rowMatch c)⟩,
    and_rowMask_eq_rowMatch⟩

/-! What a step does, by what the ports show at the edge (R71, R180, R185). -/

theorem cmdReady_iff (s : State) : s.cmdReady = true ↔ s.busy = false ∧ s.portIn.rst = false := by
  simp [State.cmdReady]

theorem step_of_rst {s : State} (h : s.portIn.rst = true) : step s = .next s.pastEdge.resetEvent := by
  simp [step, sample_of_rst h]

theorem step_of_accept {s : State} (hv : s.portIn.cmdValid = true) (hr : s.cmdReady = true) :
    step s = exec (decode s.portIn.cmd) s.pastEdge := by
  obtain ⟨hb, hrst⟩ := (cmdReady_iff s).mp hr
  simp [step, sample_of_accept hrst hv hb]

theorem step_of_no_accept {s : State} (hrst : s.portIn.rst = false)
    (h : s.portIn.cmdValid = false ∨ s.cmdReady = false) : step s = .next s.pastEdge := by
  have hs : s.sample = .nothing := by rcases h with h | h <;> simp [State.sample, hrst, h]
  simp [step, hs]

/-- The same state with another word on `cmd` at the next edge. -/
def State.withCmd (s : State) (c : CmdWord) : State :=
  { s with inputs := { s.portIn with cmd := c } :: s.inputs.tail }

@[simp] theorem State.withCmd_portIn (s : State) (c : CmdWord) :
    (s.withCmd c).portIn = { s.portIn with cmd := c } := rfl
@[simp] theorem State.withCmd_pastEdge (s : State) (c : CmdWord) : (s.withCmd c).pastEdge = s.pastEdge := rfl
@[simp] theorem State.withCmd_cmdReady (s : State) (c : CmdWord) : (s.withCmd c).cmdReady = s.cmdReady := rfl

/-- A word that is not accepted makes no difference, under `rst` or not (R71). -/
theorem step_withCmd_of_no_accept {s : State} (c : CmdWord)
    (h : s.portIn.cmdValid = false ∨ s.cmdReady = false) : step (s.withCmd c) = step s := by
  cases hrst : s.portIn.rst with
  | true => rw [step_of_rst hrst, step_of_rst (s := s.withCmd c) hrst, State.withCmd_pastEdge]
  | false => rw [step_of_no_accept hrst h, step_of_no_accept (s := s.withCmd c) hrst h, State.withCmd_pastEdge]

/-- Settles O7: the step of an accepted word, and of an edge that accepts none. -/
theorem onlyAcceptedWordsHaveAnEffect : Obligations.OnlyAcceptedWordsHaveAnEffect := fun _ =>
  ⟨rfl, step_of_accept, fun h => ⟨fun hrst => step_of_no_accept hrst h, fun c => step_withCmd_of_no_accept c h⟩⟩

/-- A step sees the word on `cmd` only through its decoding, whether the word is accepted or not (R74). -/
theorem step_withCmd_congr {s : State} {c c' : CmdWord} (h : decode c = decode c') :
    step (s.withCmd c) = step (s.withCmd c') := by
  by_cases ha : s.portIn.cmdValid = true ∧ s.cmdReady = true
  · obtain ⟨hv, hr⟩ := ha
    rw [step_of_accept (s := s.withCmd c) hv hr, step_of_accept (s := s.withCmd c') hv hr]
    simp [h]
  · have hn : s.portIn.cmdValid = false ∨ s.cmdReady = false := by
      simpa only [not_and_or, Bool.not_eq_true] using ha
    rw [step_withCmd_of_no_accept c hn, step_withCmd_of_no_accept c' hn]

/-- Offering one of two words of one command is offering the other: `withCmd` at an edge with an offer. -/
theorem step_offer_congr {c c' : CmdWord} (h : decode c = decode c') (s : State) (rest : List PortIn) :
    step { s with inputs := PortIn.offer c :: rest } = step { s with inputs := PortIn.offer c' :: rest } :=
  step_withCmd_congr (s := { s with inputs := PortIn.offer 0 :: rest }) h

/-- Settles O13: every word of the INIT row and of the FINAL row decodes as the canonical word does, and a step sees
no more of it. -/
theorem ignoredDataMakesNoDifference : Obligations.IgnoredDataMakesNoDifference :=
  ⟨rfl, rfl, fun _ => decode_of_init_row, fun _ => decode_of_final_row,
    fun s _ rest h => step_offer_congr (decode_of_init_row h) s rest,
    fun s _ rest h h' => step_offer_congr (decode_of_final_row h h') s rest⟩

/-! The reserved row (R75). -/

/-- Settles O23: the reserved row decodes to the reserved operation, whose next state has `ERR` set and so differs
from one in which it was clear. -/
theorem reservedIsRejectedInEveryPhase : Obligations.ReservedIsRejectedInEveryPhase := by
  refine ⟨fun _ => decode_of_reserved_row, fun s => ⟨rejectReason_reserved _, _, exec_reserved s, rfl, ?_⟩⟩
  intro herr hsame
  have htrue : s.err = true := by rw [← hsame, State.reject_err]
  simp [herr] at htrue

end Sys2Proof.Machine
end

section
/-!
PROOFS. The message schedule (40_compression.md rules R92 and R93): a word, once written, is the recurrence at its
index over the finished schedule, since no later extension writes an earlier word; the parsed words; the all-zero block.
-/

namespace Sys2Proof.Machine

/-- Every word that extending from `t` on writes satisfies the recurrence in the result: it was computed from earlier
words, and those are the result's own. -/
theorem expandFrom_recurrence (n : Nat) {t i : Nat} (w : Vector Word 80) (h : 16 ≤ i ∧ i < 80) (hti : t ≤ i)
    (hin : i < t + n) : (expandFrom n t w)[i] = scheduleWord (expandFrom n t w) i h := by
  induction n generalizing t w with
  | zero => omega
  | succ n ih =>
    rw [expandFrom]
    rcases Nat.eq_or_lt_of_le hti with rfl | hlt
    · have hearlier : ∀ k (hk : k < 80), k < t → w[k] = (expandFrom n (t + 1) (expandAt w t))[k] := by
        intro k hk hkt
        rw [expandFrom_before _ _ hk (by omega), expandAt_other _ hk (by omega)]
      rw [expandFrom_before _ _ h.2 (by omega), expandAt_same _ h]
      exact scheduleWord_congr h hearlier
    · exact ih _ hlt (by omega)

theorem schedule_recurrence (blk : Block) {t : Nat} (h : 16 ≤ t ∧ t < 80) :
    (schedule blk)[t] = scheduleWord (schedule blk) t h :=
  expandFrom_recurrence 64 _ h h.1 h.2

theorem schedule_parsed (blk : Block) {t : Nat} (h : t < 16) : (schedule blk)[t] = parseWord blk ⟨t, h⟩ := by
  rw [schedule, expandFrom_before _ _ _ h, placeParsed_parsed _ _ h]

/-! The all-zero block (R93, corner cases). -/

theorem parseWord_zero {blk : Block} (hz : ∀ k : Fin 64, blk[k] = 0) (i : Fin 16) : parseWord blk i = 0 := by
  have hbyte (k : Nat) (hk : k < 64) : blk[k] = 0 := hz ⟨k, hk⟩
  simp only [parseWord, hbyte]
  rfl

theorem scheduleWord_zero {w : Vector Word 80} {t : Nat} (h : 16 ≤ t ∧ t < 80)
    (hz : ∀ i (hi : i < 80), i < t → w[i] = 0) : scheduleWord w t h = 0 := by
  rw [scheduleWord, hz (t - 3) _ (by omega), hz (t - 8) _ (by omega), hz (t - 14) _ (by omega),
    hz (t - 16) _ (by omega)]
  rfl

theorem schedule_zero {blk : Block} (hz : ∀ k : Fin 64, blk[k] = 0) (t : Nat) (ht : t < 80) :
    (schedule blk)[t] = 0 := by
  induction t using Nat.strongRecOn with
  | ind t ih =>
    by_cases h16 : t < 16
    · rw [schedule_parsed _ h16, parseWord_zero hz]
    · rw [schedule_recurrence _ ⟨by omega, ht⟩]
      exact scheduleWord_zero _ fun i hi hit => ih i hit hi

/-- Settles O34: the parsed words, the recurrence over the finished schedule, and the all-zero block. -/
theorem scheduleSatisfiesItsRecurrence : Obligations.ScheduleSatisfiesItsRecurrence :=
  fun blk => ⟨fun i => schedule_parsed blk i.isLt, fun _ => schedule_recurrence blk,
    fun hz t => schedule_zero hz t.val t.isLt⟩

end Sys2Proof.Machine
end

section
/-!
PROOFS. The counter (41_streaming.md rules R123, R126, R128): the value of `LEN` and of its two halves after any number
of counted bytes; the chunk; and FINAL, whose finalizer absorbs exactly the padding bytes, from whatever `LEN`.
-/

namespace Sys2Proof.Machine

/-! `LEN` and its halves after `n` bytes more (R22, R123). -/

theorem lenLo_toNat (len : Dword) : (lenLo len).toNat = len.toNat % 2 ^ 32 := by
  rw [lenLo, toNat_extractLsb'_div, Nat.pow_zero, Nat.div_one]

theorem lenHi_toNat (len : Dword) : (lenHi len).toNat = len.toNat / 2 ^ 32 := by
  have h := len.isLt
  rw [lenHi, toNat_extractLsb'_div]
  omega

theorem addBytes_toNat (len : Dword) (n : Nat) :
    (len + BitVec.ofNat 64 (8 * n)).toNat = (len.toNat + 8 * n) % 2 ^ 64 := by
  rw [BitVec.toNat_add, BitVec.toNat_ofNat, Nat.add_mod_mod]

theorem addBytes_lenLo (len : Dword) (n : Nat) :
    (lenLo (len + BitVec.ofNat 64 (8 * n))).toNat = ((lenLo len).toNat + 8 * n) % 2 ^ 32 := by
  simp only [lenLo_toNat, addBytes_toNat]
  omega

/-- The low half carries out once for each `2 ^ 32` it passes, and the carry out of bit 63 is dropped. -/
theorem addBytes_lenHi (len : Dword) (n : Nat) :
    (lenHi (len + BitVec.ofNat 64 (8 * n))).toNat =
      ((lenHi len).toNat + ((lenLo len).toNat + 8 * n) / 2 ^ 32) % 2 ^ 32 := by
  simp only [lenHi_toNat, lenLo_toNat, addBytes_toNat]
  omega

theorem countByte_eq (len : Dword) : countByte len = len + BitVec.ofNat 64 (8 * 1) := rfl

/-- One byte carries at most once. -/
theorem countByte_lenHi (len : Dword) : (lenHi (countByte len)).toNat =
    if 2 ^ 32 ≤ (lenLo len).toNat + 8 then ((lenHi len).toNat + 1) % 2 ^ 32 else (lenHi len).toNat := by
  have hlo := (lenLo len).isLt
  have hhi := (lenHi len).isLt
  rw [countByte_eq, addBytes_lenHi]
  split <;> omega

/-! The chunk (R126, R128). -/

theorem absorbChunk_len (c : Context) (data : List Byte) :
    (c.absorbChunk data).len = c.len + BitVec.ofNat 64 (8 * data.length) := by
  simp only [Context.absorbChunk]
  split <;> rfl

/-- `L << 3` is `8 * L`, both modulo `2 ^ 64`. -/
theorem ofNat_shiftLeft_three (n : Nat) : BitVec.ofNat 64 n <<< 3 = BitVec.ofNat 64 (8 * n) := by
  apply BitVec.eq_of_toNat_eq
  simp only [BitVec.toNat_shiftLeft, BitVec.toNat_ofNat, Nat.shiftLeft_eq]
  omega

/-- The empty chunk completes no block, since the occupancy is below 64. -/
theorem absorbChunk_nil (c : Context) : c.absorbChunk [] = c := by
  have hj := (occupancy c.len).isLt
  have hno : ¬ 63 < (occupancy c.len).val + ([] : List Byte).length := by simp; omega
  simp only [Context.absorbChunk, if_neg hno, fillFrom]
  simp

/-- Settles O42: the empty chunk, and the two lines that emit the commands of one. -/
theorem emptyChunkChangesNothing : Obligations.EmptyChunkChangesNothing :=
  ⟨absorbChunk_nil, rfl, rfl⟩

/-! Absorbing a list of bytes on CORE's own state (R79, R124). -/

/-- Bytes absorbed one after the other by CORE itself, with its engine. -/
def State.absorbBytes (data : List Byte) (s : State) : State := data.foldl (fun t d => t.absorbByte d) s

theorem State.absorbBytes_cons (d : Byte) (rest : List Byte) (s : State) :
    s.absorbBytes (d :: rest) = (s.absorbByte d).absorbBytes rest := rfl

theorem State.absorbBytes_append (l m : List Byte) (s : State) :
    s.absorbBytes (l ++ m) = (s.absorbBytes l).absorbBytes m := List.foldl_append

/-- Absorbing `l` adds eight bits a byte to the counter, as it does for a context (R123). -/
theorem State.absorbBytes_len (l : List Byte) (s : State) :
    (s.absorbBytes l).len = s.len + BitVec.ofNat 64 (8 * l.length) := by
  induction l generalizing s with
  | nil => exact (BitVec.add_zero _).symm
  | cons d l ih =>
    rw [State.absorbBytes_cons, ih, absorbByte_len, countByte_eq, BitVec.add_assoc, ← BitVec.ofNat_add, ← Nat.mul_add,
      Nat.add_comm, List.length_cons]

theorem State.absorbBytes_fc (l : List Byte) (s : State) : (s.absorbBytes l).fc = s.fc := by
  induction l generalizing s with
  | nil => rfl
  | cons d l ih => rw [State.absorbBytes_cons, ih, absorbByte_fc]

/-- The same state with the finalizer at another position. -/
def State.atFStep (p : FStep) (s : State) : State := { s with fstep := p }

@[simp] theorem State.atFStep_fstep (p : FStep) (s : State) : (s.atFStep p).fstep = p := rfl
@[simp] theorem State.atFStep_len (p : FStep) (s : State) : (s.atFStep p).len = s.len := rfl
@[simp] theorem State.atFStep_fc (p : FStep) (s : State) : (s.atFStep p).fc = s.fc := rfl
@[simp] theorem State.atFStep_atFStep (p q : FStep) (s : State) : (s.atFStep p).atFStep q = s.atFStep q := rfl

/-- `AbsorbByte` neither reads nor writes the finalizer's position. -/
theorem absorbByte_atFStep (p : FStep) (d : Byte) (s : State) :
    (s.atFStep p).absorbByte d = (s.absorbByte d).atFStep p := by
  by_cases h : (occupancy s.len).val = 63
  · rw [absorbByte_of_eq d (s.atFStep p) h, absorbByte_of_eq d s h]
    rfl
  · rw [absorbByte_of_ne d (s.atFStep p) h, absorbByte_of_ne d s h]
    rfl

theorem absorbBytes_atFStep (p : FStep) (l : List Byte) (s : State) :
    (s.atFStep p).absorbBytes l = (s.absorbBytes l).atFStep p := by
  induction l generalizing s with
  | nil => rfl
  | cons d l ih => rw [State.absorbBytes_cons, absorbByte_atFStep, ih, State.absorbBytes_cons]

/-! The finalizer absorbs the padding (R140, R152): the marker, the zeros, the length bytes. -/

/-- The zero fill: the zeros that bring the occupancy to 56, and the test that ends it (R143). -/
theorem finalizerSteps_zeroFill (n : Nat) {s : State} (hp : s.fstep = .zeroFill) (hn : n ≤ 63)
    (hocc : ((occupancy s.len).val + n) % 64 = 56) :
    State.finalizerSteps (n + 1) s = (s.absorbBytes (List.replicate n 0x00)).atFStep (.lengthByte 0) := by
  have hlt := (occupancy s.len).isLt
  induction n generalizing s with
  | zero =>
    rw [State.finalizerSteps, finalizerStep_of_filled hp (by omega)]
    rfl
  | succ n ih =>
    have hnext : ((occupancy (s.absorbByte 0x00).len).val + n) % 64 = 56 := by
      rw [absorbByte_len, occupancy_countByte]
      omega
    rw [State.finalizerSteps, finalizerStep_of_zero hp (by omega),
      ih (by rw [absorbByte_fstep, hp]) (by omega) hnext (Fin.isLt _), List.replicate_succ, State.absorbBytes_cons]

theorem ser64_drop (v : Dword) (i : Fin 8) : (ser64 v).drop i.val = ser64Byte v i :: (ser64 v).drop (i.val + 1) := by
  have hi : i.val < (ser64 v).length := by simp
  have hget : (ser64 v)[i.val] = ser64Byte v i := List.getElem_ofFn _
  rw [List.drop_eq_getElem_cons hi, hget]

/-- From length byte `i` on, the bytes of `FC` from `i` on are absorbed, up to `done` (R144). -/
theorem finalizerSteps_lengthBytes (n : Nat) {s : State} {i : Fin 8} (hp : s.fstep = .lengthByte i)
    (hi : i.val + (n + 1) = 8) :
    State.finalizerSteps (n + 1) s = (s.absorbBytes ((ser64 s.fc).drop i.val)).atFStep .done := by
  induction n generalizing s i with
  | zero =>
    have hlast : FStep.afterLengthByte i = .done := dif_neg (by omega)
    have hnone : (ser64 s.fc).drop (i.val + 1) = [] := List.drop_eq_nil_of_le (by rw [ser64_length]; omega)
    rw [State.finalizerSteps, finalizerStep_of_lengthByte hp, hlast, ser64_drop, hnone]
    rfl
  | succ n ih =>
    have hnext : FStep.afterLengthByte i = .lengthByte ⟨i.val + 1, by omega⟩ := dif_pos (by omega)
    have hstep : s.finalizerStep = (s.absorbByte (ser64Byte s.fc i)).atFStep (FStep.afterLengthByte i) :=
      finalizerStep_of_lengthByte hp
    rw [State.finalizerSteps, hstep, hnext, ih rfl (by simp only; omega), absorbBytes_atFStep, State.atFStep_atFStep,
      State.atFStep_fc, absorbByte_fc, ser64_drop _ i, State.absorbBytes_cons]

/-- From any occupancy, the marker and at most 63 zeros bring it to 56 (R143). -/
theorem zeroCount_fills (j : Nat) : zeroCount j ≤ 63 ∧ (j + 1 + zeroCount j) % 64 = 56 := by
  rw [zeroCount]
  omega

/-- The finalizer's run is the absorption of the padding bytes, whatever the captured `LEN`; it ends at `done`. -/
theorem runFinalizer_eq_absorbBytes (s : State) :
    s.runFinalizer = (s.capture.absorbBytes (paddingBytes s.len)).atFStep .done := by
  obtain ⟨n, hn, hrun⟩ := runFinalizer_open s
  obtain ⟨hz, hfill⟩ := zeroCount_fills (occupancy s.len).val
  rw [paddingBytes]
  generalize zeroCount (occupancy s.len).val = z at *
  have hsplit : n = 1 + ((z + 1) + ((7 + 1) + (63 - z))) := by omega
  have hmark : State.finalizerSteps 1 s.capture = (s.capture.absorbByte 0x80).atFStep .zeroFill :=
    finalizerStep_of_marker s.capture_fstep
  have hocc : ((occupancy ((s.capture.absorbByte 0x80).atFStep .zeroFill).len).val + z) % 64 = 56 := by
    rw [State.atFStep_len, absorbByte_len, occupancy_countByte, State.capture_len]
    omega
  rw [hrun, hsplit, finalizerSteps_add, hmark, finalizerSteps_add, finalizerSteps_zeroFill z rfl hz hocc,
    finalizerSteps_add, finalizerSteps_lengthBytes 7 rfl rfl, finalizerSteps_done _ rfl]
  simp [absorbBytes_atFStep, State.absorbBytes_fc, State.absorbBytes_cons, State.absorbBytes_append]

theorem paddingBytes_length (len : Dword) :
    (paddingBytes len).length = 1 + zeroCount (occupancy len).val + 8 := by
  simp [paddingBytes]
  omega

theorem finalize_len_toNat (s : State) :
    s.finalize.len.toNat = (s.len.toNat + 8 * (1 + zeroCount (occupancy s.len).val + 8)) % 2 ^ 64 := by
  rw [State.finalize_len, runFinalizer_eq_absorbBytes, State.atFStep_len, State.absorbBytes_len, addBytes_toNat,
    paddingBytes_length, State.capture_len]

/-- Settles O17: one byte and a chunk by the value of `LEN` and its halves after an addition of whole bytes, FINAL by the
padding its finalizer absorbs. -/
theorem counterCarriesIntoTheHighHalf : Obligations.CounterCarriesIntoTheHighHalf := by
  refine ⟨fun s d => ?_, fun c data => ?_, fun s hready _ => ?_⟩
  · rw [absorbByte_len]
    exact ⟨addBytes_toNat s.len 1, addBytes_lenLo s.len 1, countByte_lenHi s.len⟩
  · rw [absorbChunk_len, ofNat_shiftLeft_three]
    exact ⟨rfl, addBytes_toNat _ _, addBytes_lenLo _ _, addBytes_lenHi _ _⟩
  · refine ⟨s.busyWhile State.finalize, ?_, ?_⟩
    · rw [exec_final, inReady_of_ready _ hready]
    · rw [State.busyWhile_len, finalize_len_toNat]

end Sys2Proof.Machine
end

section
/-!
PROOFS. The digest (42_finalize.md rules R147 to R149): the five words as slices of the port, from which each digest
byte is a slice of a slice; and the reads that the port allows.
-/

namespace Sys2Proof.Machine

/-! The port (R148). -/

/-- The words on the port, in word order. -/
def Hash.words (h : Hash) : List Word := [h.h0, h.h1, h.h2, h.h3, h.h4]

theorem toNat_append_word {n : Nat} (x : BitVec n) (w : Word) : (x ++ w).toNat = x.toNat * 2 ^ 32 + w.toNat := by
  rw [BitVec.toNat_append, ← Nat.shiftLeft_add_eq_or_of_lt w.isLt, Nat.shiftLeft_eq]

theorem digest_toNat (h : Hash) : h.digest.toNat =
    h.h0.toNat * 2 ^ 128 + h.h1.toNat * 2 ^ 96 + h.h2.toNat * 2 ^ 64 + h.h3.toNat * 2 ^ 32 + h.h4.toNat := by
  simp only [Hash.digest, toNat_append_word]
  omega

/-- The slices of the port are the digits of its value to the base `2 ^ 32`. -/
theorem digest_slices (h : Hash) :
    h.digest.extractLsb' 128 32 = h.h0 ∧ h.digest.extractLsb' 96 32 = h.h1 ∧ h.digest.extractLsb' 64 32 = h.h2 ∧
      h.digest.extractLsb' 32 32 = h.h3 ∧ h.digest.extractLsb' 0 32 = h.h4 := by
  have h1 := h.h1.isLt
  have h2 := h.h2.isLt
  have h3 := h.h3.isLt
  have h4 := h.h4.isLt
  refine ⟨?_, ?_, ?_, ?_, ?_⟩ <;> apply BitVec.eq_of_toNat_eq <;> rw [toNat_extractLsb'_div, digest_toNat] <;> omega

theorem words_getElem? (h : Hash) {i : Nat} (hi : i < 5) :
    h.words[i]? = some (h.digest.extractLsb' (128 - 32 * i) 32) := by
  obtain ⟨e0, e1, e2, e3, e4⟩ := digest_slices h
  match i, hi with
  | 0, _ => exact congrArg some e0.symm
  | 1, _ => exact congrArg some e1.symm
  | 2, _ => exact congrArg some e2.symm
  | 3, _ => exact congrArg some e3.symm
  | 4, _ => exact congrArg some e4.symm

/-! The digest bytes (R147). -/

theorem ser32_getElem? (w : Word) {k : Nat} (hk : k < 4) : (ser32 w)[k]? = some (w.extractLsb' (24 - 8 * k) 8) := by
  match k, hk with
  | 0, _ | 1, _ | 2, _ | 3, _ => rfl

/-- Each word takes four bytes, so byte `4i + k` of serialized words is byte `k` of word `i`. -/
theorem flatMap_ser32_getElem? (l : List Word) (i : Nat) {k : Nat} (hk : k < 4) :
    (l.flatMap ser32)[4 * i + k]? = l[i]?.map fun w => w.extractLsb' (24 - 8 * k) 8 := by
  induction l generalizing i with
  | nil => rfl
  | cons w l ih =>
    rw [List.flatMap_cons]
    cases i with
    | zero =>
      rw [Nat.mul_zero, Nat.zero_add, List.getElem?_append_left hk, ser32_getElem? w hk]
      rfl
    | succ i =>
      have hpast : 4 * (i + 1) + k = (ser32 w).length + (4 * i + k) := by simp only [ser32, List.length]; omega
      rw [hpast, List.getElem?_append_right (Nat.le_add_right _ _), Nat.add_sub_cancel_left, ih,
        List.getElem?_cons_succ]

theorem digestBytes_eq_flatMap (h : Hash) : h.digestBytes = h.words.flatMap ser32 := rfl

theorem digestBytes_getElem? (h : Hash) (i : Nat) {k : Nat} (hk : k < 4) :
    h.digestBytes[4 * i + k]? = h.words[i]?.map fun w => w.extractLsb' (24 - 8 * k) 8 := by
  rw [digestBytes_eq_flatMap, flatMap_ser32_getElem? h.words i hk]

/-- Byte `n` is byte `n mod 4` of word `n div 4`, a slice of that word's slice of the port. -/
theorem digestBytes_getElem?_port (h : Hash) {n : Nat} (hn : n < 20) :
    h.digestBytes[n]? = some (h.digest.extractLsb' (152 - 8 * n) 8) := by
  have hbit : 128 - 32 * (n / 4) + (24 - 8 * (n % 4)) = 152 - 8 * n := by omega
  calc
    h.digestBytes[n]? = h.digestBytes[4 * (n / 4) + n % 4]? := by rw [Nat.div_add_mod]
    _ = some ((h.digest.extractLsb' (128 - 32 * (n / 4)) 32).extractLsb' (24 - 8 * (n % 4)) 8) := by
      rw [digestBytes_getElem? h _ (by omega), words_getElem? h (by omega), Option.map_some]
    _ = some (h.digest.extractLsb' (152 - 8 * n) 8) := by rw [extractLsb'_of_extractLsb' _ (by omega), hbit]

/-- Settles O30: the port by its five slices, each byte by the word it belongs to. -/
theorem digestPortShowsTheDigestBytes : Obligations.DigestPortShowsTheDigestBytes := by
  intro h
  obtain ⟨e0, e1, e2, e3, e4⟩ := digest_slices h
  exact ⟨rfl, e0, e1, e2, e3, e4, fun _ => digestBytes_getElem?_port h, fun i _ _ => digestBytes_getElem? h i⟩

/-! Reading the port (R149). -/

theorem dvalid_iff (s : State) : s.dvalid = true ↔ s.phase = .finalized ∧ s.busy = false := by
  simp [State.dvalid]

theorem readDigest_of_dvalid {s : State} (h : s.dvalid = true) : s.readDigest = .ok s.h.digest := if_pos h

theorem readDigest_of_not_dvalid {s : State} (h : s.dvalid = false) : s.readDigest = .error .digestNotValid :=
  if_neg (Bool.eq_false_iff.mp h)

/-- Settles O31: `dvalid` by its definition, and a read by the two cases of `dvalid`. -/
theorem digestIsReadableExactlyWhenValid : Obligations.DigestIsReadableExactlyWhenValid :=
  fun s => ⟨dvalid_iff s, readDigest_of_dvalid, readDigest_of_not_dvalid⟩

end Sys2Proof.Machine
end

section
/-!
PROOFS. The engine and `Compress` (40_compression.md rules R91 and R103): after `n` rounds the engine holds the working
variables of `Compress` after `n` rounds, and so much of the schedule as it has written.
-/

namespace Sys2Proof.Machine

/-- Two schedules agree on the parsed words and on every word before `n`. -/
def AgreesBefore (n : Nat) (w v : Vector Word 80) : Prop := ∀ i (hi : i < 80), i < 16 ∨ i < n → w[i] = v[i]

/-- Round `n` writes word `n` of the schedule, if it is not parsed: it is computed from words that agree. -/
theorem expandAt_agrees {n : Nat} {w : Vector Word 80} {blk : Block} (hn : n < 80)
    (h : AgreesBefore n w (schedule blk)) : AgreesBefore (n + 1) (expandAt w n) (schedule blk) := by
  intro i hi hin
  by_cases hparsed : n < 16
  · rw [expandAt_parsed w hparsed]
    exact h i hi (by omega)
  · rcases Decidable.em (i = n) with rfl | hne
    · have hrange : 16 ≤ i ∧ i < 80 := ⟨by omega, hn⟩
      rw [expandAt_same w hrange, schedule_recurrence blk hrange]
      exact scheduleWord_congr hrange fun k hk hki => h k hk (.inr hki)
    · rw [expandAt_other w hi hne]
      exact h i hi (by omega)

/-- What the engine holds after `n` rounds on `blk` from `h`. -/
def Engine.AfterRounds (h : Hash) (blk : Block) (n : Nat) (g : Engine) : Prop :=
  g.t.val = n ∧ (∃ hn : n ≤ 80, g.work = roundsTo (schedule blk) n hn (loadWork h)) ∧
    AgreesBefore n g.w (schedule blk)

/-- LOAD places the parsed words and the input state, whatever the engine held (R103). -/
theorem afterRounds_load (h : Hash) (blk : Block) (g : Engine) :
    Engine.AfterRounds h blk 0 (Engine.load h blk g) := by
  refine ⟨rfl, ⟨Nat.zero_le _, rfl⟩, fun i hi hin => ?_⟩
  have hi16 : i < 16 := by omega
  rw [schedule_parsed blk hi16]
  exact placeParsed_parsed blk g.w hi16

theorem afterRounds_round {h : Hash} {blk : Block} {n : Nat} {g : Engine} (hn : n < 80)
    (hg : Engine.AfterRounds h blk n g) : Engine.AfterRounds h blk (n + 1) g.round := by
  obtain ⟨rfl, ⟨hle, hwork⟩, hw⟩ := hg
  have hw' := expandAt_agrees hn hw
  rw [engine_round_of_lt g hn]
  refine ⟨rfl, ⟨hn, ?_⟩, hw'⟩
  rw [roundsTo, ← hwork, ← hw' g.t.val hn (by omega)]

theorem afterRounds_rounds (h : Hash) (blk : Block) (g : Engine) (n : Nat) (hn : n ≤ 80) :
    Engine.AfterRounds h blk n (Engine.rounds n (Engine.load h blk g)) := by
  induction n with
  | zero => exact afterRounds_load h blk g
  | succ n ih =>
    rw [engine_rounds_succ]
    exact afterRounds_round hn (ih (by omega))

/-- The engine, run on the hidden registers whatever these held, computes `Compress`. -/
theorem fold_engine_run (h : Hash) (blk : Block) (g : Engine) : fold h (Engine.run h blk g).work = compress h blk := by
  obtain ⟨-, ⟨hle, hwork⟩, -⟩ := engine_run_of_rounds (afterRounds_rounds h blk g)
  obtain ⟨n, hn, rfl, hcompress⟩ := compress_open h blk
  rw [hwork, hcompress]

theorem compressStep_h_eq_compress (s : State) : s.compressStep.h = compress s.h s.buf := by
  rw [State.compressStep_h, fold_engine_run]

end Sys2Proof.Machine
end

section
/-!
PROOFS. FINAL on the context (42_finalize.md rules R144 and R146): the context after FINAL is the padding absorbed; the
bytes that end a block stand at its end, and `H` is the compression of that block.
-/

namespace Sys2Proof.Machine

/-! `AbsorbByte` on CORE's state is `AbsorbByte` on its context (R91, R124). -/

theorem absorbByte_ctx (d : Byte) (s : State) : (s.absorbByte d).ctx = s.ctx.absorbByte d := by
  by_cases hfull : (occupancy s.len).val = 63
  · rw [absorbByte_of_eq d s hfull]
    ext1 <;> simp [Context.absorbByte, hfull, compressStep_h_eq_compress, -State.compressStep_h]
  · rw [absorbByte_of_ne d s hfull]
    ext1 <;> simp [Context.absorbByte, hfull]

theorem State.absorbBytes_ctx (l : List Byte) (s : State) : (s.absorbBytes l).ctx = s.ctx.absorbBytes l := by
  induction l generalizing s with
  | nil => rfl
  | cons d l ih => rw [State.absorbBytes_cons, ih, absorbByte_ctx, Machine.absorbBytes_cons]

@[simp] theorem State.atFStep_ctx (p : FStep) (s : State) : (s.atFStep p).ctx = s.ctx := rfl

theorem finalize_ctx (s : State) : s.finalize.ctx = s.ctx.absorbBytes (paddingBytes s.len) := by
  rw [State.finalize, State.closeMessage_ctx, runFinalizer_eq_absorbBytes, State.atFStep_ctx, State.absorbBytes_ctx,
    State.capture_ctx]

/-- FINAL in `P_READY`: the context it leaves, and every other register but the engine's and `FC`. -/
theorem exec_final_of_ready {s : State} (h : s.phase = .ready) :
    ∃ t, exec .final s = .next t ∧ t.ctx = s.ctx.absorbBytes (paddingBytes s.len) ∧ t.phase = .finalized ∧
      t.err = s.err ∧ t.busy = false ∧ t.fstep = .done ∧ t.inputs = s.inputs := by
  refine ⟨s.busyWhile State.finalize, ?_, ?_, ?_, ?_, rfl, ?_, ?_⟩
  · rw [exec_final, inReady_of_ready _ h]
  · rw [State.busyWhile_ctx, finalize_ctx]
    rfl
  · rw [State.busyWhile_phase, State.finalize_phase]
  · rw [State.busyWhile_err, State.finalize_err, runFinalizer_err]
  · rw [State.busyWhile_fstep, State.finalize_fstep, runFinalizer_eq_absorbBytes, State.atFStep_fstep]
  · rw [State.busyWhile_inputs, State.finalize_inputs, runFinalizer_inputs]

/-! Bytes absorbed within one block (R124, R125). -/

theorem occupancy_absorbBytes (c : Context) (l : List Byte) :
    (occupancy (c.absorbBytes l).len).val = ((occupancy c.len).val + l.length) % 64 := by
  rw [absorbBytes_len, occupancy_val, addBytes_toNat, occupancy_val]
  omega

theorem context_absorbByte_h_of_eq {c : Context} (d : Byte) (h : (occupancy c.len).val = 63) :
    (c.absorbByte d).h = compress c.h (c.absorbByte d).buf := if_pos h

theorem context_absorbByte_h_of_ne {c : Context} (d : Byte) (h : (occupancy c.len).val ≠ 63) :
    (c.absorbByte d).h = c.h := if_neg h

theorem occupancy_absorbByte_of_ne {c : Context} (d : Byte) (h : (occupancy c.len).val ≠ 63) :
    (occupancy (c.absorbByte d).len).val = (occupancy c.len).val + 1 := by
  have hlt := (occupancy c.len).isLt
  rw [context_absorbByte_len, occupancy_countByte]
  omega

theorem storeByte_below (buf : Block) {j : Fin 64} {k : Nat} (d : Byte) (h : k < j.val) :
    (storeByte buf j d)[k] = buf[k] :=
  storeByte_other buf (j := j) (k := ⟨k, by omega⟩) d (Fin.ne_of_lt h)

/-- Bytes absorbed up to the end of the block leave the bytes held before them. -/
theorem absorbBytes_buf_below (c : Context) (l : List Byte) {k : Nat} (hk : k < (occupancy c.len).val)
    (hfit : (occupancy c.len).val + l.length ≤ 64) : (c.absorbBytes l).buf[k] = c.buf[k] := by
  induction l generalizing c with
  | nil => rfl
  | cons d l ih =>
    have hstored : (c.absorbByte d).buf[k] = c.buf[k] := storeByte_below c.buf d hk
    rw [List.length_cons] at hfit
    by_cases hlast : (occupancy c.len).val = 63
    · obtain rfl : l = [] := List.eq_nil_of_length_eq_zero (by omega)
      exact hstored
    · have hocc := occupancy_absorbByte_of_ne d hlast
      rw [absorbBytes_cons, ih _ (by omega) (by omega), hstored]

/-- Bytes absorbed up to the end of the block stand in it one after the other, from the occupancy on. -/
theorem absorbBytes_buf_stored (c : Context) (l : List Byte) {i : Nat} (hi : i < l.length)
    (hfit : (occupancy c.len).val + l.length ≤ 64) : (c.absorbBytes l).buf[(occupancy c.len).val + i] = l[i] := by
  induction l generalizing c i with
  | nil => exact absurd hi (Nat.not_lt_zero i)
  | cons d l ih =>
    have hstored : (c.absorbByte d).buf[(occupancy c.len).val] = d := storeByte_same_val _ _ _
    rw [List.length_cons] at hfit hi
    by_cases hlast : (occupancy c.len).val = 63
    · obtain rfl : l = [] := List.eq_nil_of_length_eq_zero (by omega)
      obtain rfl : i = 0 := by simpa using hi
      exact hstored
    · have hocc := occupancy_absorbByte_of_ne d hlast
      cases i with
      | zero => exact (absorbBytes_buf_below (c.absorbByte d) l (by omega) (by omega)).trans hstored
      | succ i =>
        have hrest := ih (c.absorbByte d) (i := i) (by omega) (by omega)
        simp only [hocc, Nat.add_assoc, Nat.add_comm 1] at hrest
        exact hrest

/-- The bytes that complete the block compress it as they leave it, into the hash from before them. -/
theorem absorbBytes_h_of_completes (c : Context) (l : List Byte) (hfull : (occupancy c.len).val + l.length = 64) :
    (c.absorbBytes l).h = compress c.h (c.absorbBytes l).buf := by
  induction l generalizing c with
  | nil =>
    have hlt := (occupancy c.len).isLt
    simp at hfull
    omega
  | cons d l ih =>
    rw [List.length_cons] at hfull
    by_cases hlast : (occupancy c.len).val = 63
    · obtain rfl : l = [] := List.eq_nil_of_length_eq_zero (by omega)
      exact context_absorbByte_h_of_eq d hlast
    · have hocc := occupancy_absorbByte_of_ne d hlast
      rw [absorbBytes_cons, ih _ (by omega), context_absorbByte_h_of_ne d hlast]

/-! The last block (R143, R144). -/

/-- The context when the zero fill is over: the marker and the zeros absorbed. -/
def Context.filled (c : Context) : Context :=
  c.absorbBytes (0x80 :: List.replicate (zeroCount (occupancy c.len).val) 0x00)

theorem occupancy_filled (c : Context) : (occupancy c.filled.len).val = 56 := by
  obtain ⟨-, hfill⟩ := zeroCount_fills (occupancy c.len).val
  rw [Context.filled, occupancy_absorbBytes, List.length_cons, List.length_replicate]
  omega

theorem absorbBytes_padding (c : Context) :
    c.absorbBytes (paddingBytes c.len) = c.filled.absorbBytes (ser64 c.len) := by
  rw [Context.filled, ← absorbBytes_append]
  rfl

/-- The eight length bytes end the last block. -/
theorem absorbBytes_padding_lengthByte (c : Context) {i : Nat} (hi : i < 8) :
    (c.absorbBytes (paddingBytes c.len)).buf[56 + i] = c.len.extractLsb' (56 - 8 * i) 8 := by
  have hocc := occupancy_filled c
  have hbyte : (ser64 c.len)[i]'(by simpa using hi) = c.len.extractLsb' (56 - 8 * i) 8 :=
    List.getElem_ofFn _
  have hstored := absorbBytes_buf_stored c.filled (ser64 c.len) (i := i) (by simpa using hi) (by simp [hocc])
  simp only [hocc] at hstored
  simpa only [absorbBytes_padding] using hstored.trans hbyte

theorem absorbBytes_padding_h (c : Context) : (c.absorbBytes (paddingBytes c.len)).h =
    compress c.filled.h (c.absorbBytes (paddingBytes c.len)).buf := by
  rw [absorbBytes_padding]
  exact absorbBytes_h_of_completes _ _ (by rw [occupancy_filled, ser64_length])

/-- A word of a block is the word whose bytes stand there, most significant first. -/
theorem parseWord_eq_of_slices {blk : Block} {w : Word} (i : Fin 16)
    (h : ∀ k (hk : k < 4), blk[4 * i.val + k] = w.extractLsb' (24 - 8 * k) 8) : parseWord blk i = w := by
  rw [← be32_slices w, ← h 0 (by omega), ← h 1 (by omega), ← h 2 (by omega), ← h 3 (by omega)]
  rfl

/-- Words 14 and 15 of the last block are the high and the low half of the captured length. -/
theorem parseWord_padding (c : Context) (m : Fin 2) :
    parseWord (c.absorbBytes (paddingBytes c.len)).buf ⟨14 + m.val, by omega⟩ =
      c.len.extractLsb' (32 - 32 * m.val) 32 := by
  refine parseWord_eq_of_slices _ fun k hk => ?_
  have hpos : 4 * (14 + m.val) + k = 56 + (4 * m.val + k) := by omega
  have hbit : 32 - 32 * m.val + (24 - 8 * k) = 56 - 8 * (4 * m.val + k) := by omega
  simp only [hpos]
  rw [extractLsb'_of_extractLsb' _ (by omega), hbit]
  exact absorbBytes_padding_lengthByte c (by omega)

/-- Settles O20: the context after FINAL is the padding absorbed, whose last eight bytes complete the last block. -/
theorem lengthBytesEndTheLastBlock : Obligations.LengthBytesEndTheLastBlock := by
  intro s hready _
  obtain ⟨t, hexec, hctx, -⟩ := exec_final_of_ready hready
  have hh : t.h = _ := congrArg Context.h hctx
  have hbuf : t.buf = _ := congrArg Context.buf hctx
  refine ⟨t, hexec, ?_⟩
  rw [hh, hbuf]
  exact ⟨fun i => absorbBytes_padding_lengthByte s.ctx i.isLt, parseWord_padding s.ctx 0,
    parseWord_padding s.ctx 1, absorbBytes_padding_h s.ctx⟩

/-! The state after FINAL (R146). -/

theorem absorbBytes_padding_len_toNat (c : Context) : (c.absorbBytes (paddingBytes c.len)).len.toNat =
    (c.len.toNat + 8 * (1 + zeroCount (occupancy c.len).val + 8)) % 2 ^ 64 := by
  rw [absorbBytes_len, addBytes_toNat, paddingBytes_length]

/-- A whole number of bytes, the marker, the zeros and the length bytes end at the first multiple of 512 that leaves
room for one bit and 64. -/
theorem padded_len_eq_next_multiple {len : Dword} (h : len.extractLsb' 0 3 = 0) :
    len.toNat + 8 * (1 + zeroCount (occupancy len).val + 8) = (len.toNat + 65 + 511) / 512 * 512 := by
  have hbytes : len.toNat % 8 = 0 := by simpa [toNat_extractLsb'_div] using congrArg BitVec.toNat h
  rw [occupancy_val, zeroCount]
  omega

theorem occupancy_padding (c : Context) : (occupancy (c.absorbBytes (paddingBytes c.len)).len).val = 0 := by
  rw [absorbBytes_padding, occupancy_absorbBytes, occupancy_filled, ser64_length]

/-- Settles O22: the context after FINAL is the padding absorbed, and in `P_FINALIZED` the guard rejects. -/
theorem finalLeavesAWholeNumberOfBlocks : Obligations.FinalLeavesAWholeNumberOfBlocks := by
  intro s hready hbytes
  obtain ⟨t, hexec, hctx, hphase, herr, -⟩ := exec_final_of_ready hready
  have hlen : t.len = (s.ctx.absorbBytes (paddingBytes s.len)).len := congrArg Context.len hctx
  have hvalue : t.len.toNat = _ := (congrArg BitVec.toNat hlen).trans (absorbBytes_padding_len_toNat s.ctx)
  refine ⟨t, hexec, hphase, congrArg Context.h hctx, hvalue, ?_, ?_, herr, fun d => ?_, ?_⟩
  · rw [hvalue, State.ctx_len, padded_len_eq_next_multiple hbytes]
  · rw [hlen]
    exact occupancy_padding s.ctx
  · rw [exec_absb, inReady_of_finalized _ hphase]
    rfl
  · rw [exec_final, inReady_of_finalized _ hphase]
    rfl

end Sys2Proof.Machine
end

section
/-!
PROOFS. Rejects (60_exceptions.md rules R161, R162): which phase gives which reason, which command gives which reason,
and one equation for `exec` of every rejected command.
-/

namespace Sys2Proof.Machine

/-! The phase check by its reasons, and the commands it guards (R161). -/

theorem phaseReject_eq_eUninit_iff (p : Phase) : phaseReject p = some .eUninit ↔ p = .uninit := by
  cases p <;> simp

theorem phaseReject_eq_eClosed_iff (p : Phase) : phaseReject p = some .eClosed ↔ p = .finalized := by
  cases p <;> simp

theorem phaseReject_ne_eRsvd (p : Phase) : phaseReject p ≠ some .eRsvd := by
  cases p <;> simp

theorem rejectReason_eq_eRsvd_iff (i : Instr) (p : Phase) : rejectReason i p = some .eRsvd ↔ i = .reserved := by
  cases i with
  | init => simp
  | absb d => simp [phaseReject_ne_eRsvd]
  | final => simp [phaseReject_ne_eRsvd]
  | reserved => simp

/-- A reason other than `E_RSVD` is the phase check's, and only ABSB and FINAL make that check. -/
theorem rejectReason_eq_some_iff_phaseReject {r : Reject} (hr : r ≠ .eRsvd) (i : Instr) (p : Phase) :
    rejectReason i p = some r ↔ (i = .final ∨ ∃ d, i = .absb d) ∧ phaseReject p = some r := by
  cases i with
  | init => simp
  | absb d => simp
  | final => simp
  | reserved => simpa using hr.symm

/-! What a rejected command does (R162). -/

theorem inReady_of_phaseReject {s : State} {r : Reject} (f : State → State) (h : phaseReject s.phase = some r) :
    s.inReady f = s.reject r := by
  rw [State.inReady, h]

theorem exec_of_rejectReason {i : Instr} {s : State} {r : Reject} (h : rejectReason i s.phase = some r) :
    exec i s = .next (s.reject r) := by
  cases i with
  | init => simp at h
  | absb d => rw [exec_absb, inReady_of_phaseReject _ h]
  | final => rw [exec_final, inReady_of_phaseReject _ h]
  | reserved =>
    obtain rfl : .eRsvd = r := Option.some.inj h
    exact exec_reserved s

/-- Settles O25: a rejected command is `State.reject` for its reason, which writes `ERR` alone. -/
theorem rejectSetsErrAndNothingElse : Obligations.RejectSetsErrAndNothingElse := by
  intro i s hrejected
  obtain ⟨r, hreason⟩ := Option.isSome_iff_exists.mp hrejected
  exact exec_of_rejectReason hreason

/-- Settles O24: each reason by the commands and the phase that give it; two rejected commands leave one state, since
each sets `ERR` and nothing else. -/
theorem rejectReasonsAndCodes : Obligations.RejectReasonsAndCodes := by
  refine ⟨rfl, rfl, rfl, fun i p => ⟨rejectReason_eq_eRsvd_iff i p, ?_, ?_⟩, rejectReason_init, fun i i' s h h' => ?_⟩
  · rw [rejectReason_eq_some_iff_phaseReject (by decide), phaseReject_eq_eUninit_iff]
  · rw [rejectReason_eq_some_iff_phaseReject (by decide), phaseReject_eq_eClosed_iff]
  · rw [rejectSetsErrAndNothingElse i s h, rejectSetsErrAndNothingElse i' s h']

end Sys2Proof.Machine
end

section
/-!
PROOFS. What a command and an edge do to what the rules let anything depend on: `PHASE`, the context, `ERR`, `BUSY` and
the host's list. It is said once, as a function of the command, the phase and the context; the invariant (10_state.md
section 6), liveness (R160, R189), the record of rejects (R163) and the digest (R150) are read off from it.
-/

namespace Sys2Proof.Machine

/-! One command. -/

/-- The phase a command leads to: the transition table of R27. -/
def phaseAfter (i : Instr) (p : Phase) : Phase :=
  match i, p with
  | .init, _ => .ready
  | .final, .ready => .finalized
  | _, p => p

/-- The context a command leads to: R120 for INIT, R124 and R140 for ABSB and FINAL in `P_READY`; a rejected command
leaves it (R162). -/
def contextAfter (i : Instr) (p : Phase) (c : Context) : Context :=
  match i, p with
  | .init, _ => c.init
  | .absb d, .ready => c.absorbByte d
  | .final, .ready => c.absorbBytes (paddingBytes c.len)
  | _, _ => c

/-- A command answers `t` from `s`: everything but the hidden registers is named. -/
structure Executes (i : Instr) (s t : State) : Prop where
  answers : exec i s = .next t
  phase : t.phase = phaseAfter i s.phase
  ctx : t.ctx = contextAfter i s.phase s.ctx
  err : t.err = (s.err || (rejectReason i s.phase).isSome)
  idle : s.busy = false → t.busy = false
  inputs : t.inputs = s.inputs

theorem executes_init (s : State) : Executes .init s s.openMessage where
  answers := exec_init s
  phase := rfl
  ctx := rfl
  err := (Bool.or_false _).symm
  idle := id
  inputs := rfl

theorem executes_absb_of_ready (d : Byte) {s : State} (h : s.phase = .ready) :
    Executes (.absb d) s (s.busyWhile (State.absorbByte d)) where
  answers := by rw [exec_absb, inReady_of_ready _ h]
  phase := by rw [State.busyWhile_phase, absorbByte_phase, h]; rfl
  ctx := by rw [State.busyWhile_ctx, absorbByte_ctx, h]; rfl
  err := by rw [State.busyWhile_err, absorbByte_err, h]; exact (Bool.or_false _).symm
  idle _ := rfl
  inputs := by rw [State.busyWhile_inputs, absorbByte_inputs]

theorem executes_final_of_ready {s : State} (h : s.phase = .ready) :
    Executes .final s (s.busyWhile State.finalize) where
  answers := by rw [exec_final, inReady_of_ready _ h]
  phase := by rw [State.busyWhile_phase, State.finalize_phase, h]; rfl
  ctx := by rw [State.busyWhile_ctx, finalize_ctx, h]; rfl
  err := by rw [State.busyWhile_err, State.finalize_err, runFinalizer_err, h]; exact (Bool.or_false _).symm
  idle _ := rfl
  inputs := by rw [State.busyWhile_inputs, State.finalize_inputs, runFinalizer_inputs]

/-- A rejected command is in no entry of the two tables that changes anything (R162). -/
theorem after_of_rejectReason {i : Instr} {p : Phase} {r : Reject} (h : rejectReason i p = some r) (c : Context) :
    phaseAfter i p = p ∧ contextAfter i p c = c := by
  cases i with
  | init => simp at h
  | reserved => exact ⟨rfl, rfl⟩
  | absb d | final =>
    cases p with
    | ready => simp at h
    | uninit | finalized => exact ⟨rfl, rfl⟩

theorem executes_of_rejectReason {i : Instr} {s : State} {r : Reject} (h : rejectReason i s.phase = some r) :
    Executes i s (s.reject r) where
  answers := exec_of_rejectReason h
  phase := (after_of_rejectReason h s.ctx).1.symm
  ctx := (after_of_rejectReason h s.ctx).2.symm
  err := by rw [State.reject_err, h, Option.isSome_some, Bool.or_true]
  idle := id
  inputs := rfl

/-- A command that is not rejected is INIT, or ABSB or FINAL in `P_READY` (R27). -/
theorem rejectReason_eq_none {i : Instr} {p : Phase} (h : rejectReason i p = none) : i = .init ∨ p = .ready := by
  cases i with
  | init => exact .inl rfl
  | reserved => simp at h
  | absb d | final =>
    cases p with
    | ready => exact .inr rfl
    | uninit | finalized => simp at h

/-- Every command answers, in every state (R160). -/
theorem exists_executes (i : Instr) (s : State) : ∃ t, Executes i s t := by
  cases h : rejectReason i s.phase with
  | some r => exact ⟨_, executes_of_rejectReason h⟩
  | none =>
    rcases rejectReason_eq_none h with rfl | hready
    · exact ⟨_, executes_init s⟩
    · cases i with
      | init => exact ⟨_, executes_init s⟩
      | absb d => exact ⟨_, executes_absb_of_ready d hready⟩
      | final => exact ⟨_, executes_final_of_ready hready⟩
      | reserved => simp at h

theorem executes_of_exec {i : Instr} {s t : State} (h : exec i s = .next t) : Executes i s t := by
  obtain ⟨u, hu⟩ := exists_executes i s
  obtain rfl : u = t := Host.Outcome.next.inj (hu.answers.symm.trans h)
  exact hu

/-! One edge. -/

/-- An edge leads from `s` to `t`: by the reset event, by an accepted command, or by nothing. -/
inductive Edges (s : State) : State → Prop where
  | reset (hs : s.sample = .reset) (hrst : s.portIn.rst = true) : Edges s s.pastEdge.resetEvent
  | accept (c : CmdWord) (t : State) (hs : s.sample = .accept c) (hrst : s.portIn.rst = false)
      (hx : Executes (decode c) s.pastEdge t) : Edges s t
  | nothing (hs : s.sample = .nothing) (hrst : s.portIn.rst = false) : Edges s s.pastEdge

/-- Every edge has a next state (R160, R189). -/
theorem exists_edges (s : State) : ∃ t, step s = .next t ∧ Edges s t := by
  rcases sample_cases s with ⟨hrst, hs⟩ | ⟨hrst, -, -, hs⟩ | ⟨hrst, -, hs⟩
  · exact ⟨_, by rw [step, hs], .reset hs hrst⟩
  · obtain ⟨t, hx⟩ := exists_executes (decode s.portIn.cmd) s.pastEdge
    exact ⟨t, by rw [step, hs]; exact hx.answers, .accept _ t hs hrst hx⟩
  · exact ⟨_, by rw [step, hs], .nothing hs hrst⟩

theorem edges_of_step {s t : State} (h : step s = .next t) : Edges s t := by
  obtain ⟨u, hu, he⟩ := exists_edges s
  obtain rfl : u = t := Host.Outcome.next.inj (hu.symm.trans h)
  exact he

/-! The invariant (R34, R37 (a), (d)). -/

theorem inv_iff_ctx (s : State) : s.Inv ↔ s.busy = false ∧ (s.phase ≠ .uninit → s.ctx.len.extractLsb' 0 3 = 0) ∧
    (s.phase = .finalized → s.ctx.len.extractLsb' 0 9 = 0) := Iff.rfl

theorem extractLsb'_zero_eq_zero_iff (len : Dword) (n : Nat) : len.extractLsb' 0 n = 0 ↔ len.toNat % 2 ^ n = 0 := by
  rw [← BitVec.toNat_inj, toNat_extractLsb'_div]
  simp

/-- Whole bytes more leave `LEN[2:0]` as it is (R22). -/
theorem absorbBytes_whole_bytes {c : Context} (l : List Byte) (h : c.len.extractLsb' 0 3 = 0) :
    (c.absorbBytes l).len.extractLsb' 0 3 = 0 := by
  rw [extractLsb'_zero_eq_zero_iff] at *
  rw [absorbBytes_len, addBytes_toNat]
  omega

/-- The padding ends a block (R37 (d)). -/
theorem absorbBytes_padding_whole_blocks {c : Context} (h : c.len.extractLsb' 0 3 = 0) :
    (c.absorbBytes (paddingBytes c.len)).len.extractLsb' 0 9 = 0 := by
  rw [extractLsb'_zero_eq_zero_iff, absorbBytes_padding_len_toNat, padded_len_eq_next_multiple h]
  omega

/-- Every command keeps the invariant: a whole number of bytes once a message is open, of blocks once it is closed. -/
theorem executes_inv {i : Instr} {s t : State} (hx : Executes i s t) (h : s.Inv) : t.Inv := by
  obtain ⟨hbusy, hbytes, hblocks⟩ := h
  refine (inv_iff_ctx t).mpr ⟨hx.idle hbusy, ?_⟩
  rw [hx.phase, hx.ctx]
  cases hr : rejectReason i s.phase with
  | some r =>
    obtain ⟨hp, hc⟩ := after_of_rejectReason hr s.ctx
    rw [hp, hc]
    exact ⟨hbytes, hblocks⟩
  | none =>
    rcases rejectReason_eq_none hr with rfl | hready
    · exact ⟨fun _ => rfl, fun _ => rfl⟩
    · rw [hready] at hbytes ⊢
      have hopen : s.ctx.len.extractLsb' 0 3 = 0 := hbytes nofun
      cases i with
      | init => exact ⟨fun _ => rfl, fun _ => rfl⟩
      | absb d => exact ⟨fun _ => absorbBytes_whole_bytes [d] hopen, nofun⟩
      | final => exact ⟨fun _ => absorbBytes_whole_bytes _ hopen, fun _ => absorbBytes_padding_whole_blocks hopen⟩
      | reserved => simp at hr

/-- Settles O3: the reset event leads to `P_UNINIT`, a command keeps the invariant, and nothing else moves but the
host's list. -/
theorem everyStepKeepsTheInvariant : Obligations.EveryStepKeepsTheInvariant := by
  intro s t hinv hstep
  cases edges_of_step hstep with
  | reset => exact ⟨rfl, fun h => absurd rfl h, nofun⟩
  | accept c t _ _ hx => exact executes_inv hx hinv
  | nothing => exact hinv

/-! Liveness, `ERR`, `P_UNINIT` and the digest. -/

/-- Settles O9: each of the three kinds of edge has a next state, with the host's list past the edge. -/
theorem everyStepAnswers : Obligations.EveryStepAnswers := by
  intro s
  obtain ⟨t, hstep, hedge⟩ := exists_edges s
  refine ⟨t, hstep, ?_⟩
  cases hedge with
  | reset => exact ⟨rfl, fun _ => rfl⟩
  | accept c t _ _ hx => exact ⟨hx.inputs, hx.idle⟩
  | nothing => exact ⟨rfl, id⟩

/-- Settles O27: a reset clears `ERR`, a command adds its own reject, and an edge that accepts none rejects none. -/
theorem errRecordsRejectsUntilReset : Obligations.ErrRecordsRejectsUntilReset := by
  intro s t hstep
  cases edges_of_step hstep with
  | reset _ hrst => exact ⟨fun _ => rfl, fun h => absurd hrst (by simp [h])⟩
  | accept c t hs hrst hx =>
    refine ⟨fun h => absurd h (by simp [hrst]), fun _ => ?_⟩
    rw [hx.err, State.rejectsNext, hs]
    rfl
  | nothing hs hrst =>
    refine ⟨fun h => absurd h (by simp [hrst]), fun _ => ?_⟩
    rw [State.rejectsNext, hs, Bool.or_false, State.pastEdge_err]

/-- No entry of the transition table leads back to `P_UNINIT`. -/
theorem phaseAfter_ne_uninit (i : Instr) {p : Phase} (h : p ≠ .uninit) : phaseAfter i p ≠ .uninit := by
  unfold phaseAfter
  split
  · nofun
  · nofun
  · exact h

/-- Settles O29: a command neither leads to `P_UNINIT` nor clears `ERR`; the reset event does both. -/
theorem onlyResetReturnsToUninit : Obligations.OnlyResetReturnsToUninit := by
  intro s t hstep
  cases edges_of_step hstep with
  | reset _ hrst => exact ⟨fun _ _ => hrst, fun _ _ => hrst, fun _ => ⟨rfl, rfl⟩⟩
  | accept c t _ hrst hx =>
    refine ⟨fun hs ht => ?_, fun hs ht => ?_, fun h => absurd h (by simp [hrst])⟩
    · exact absurd (hx.phase.symm.trans ht) (phaseAfter_ne_uninit _ hs)
    · have herr : t.err = (s.err || _) := hx.err
      simp [hs, ht] at herr
  | nothing _ hrst =>
    refine ⟨fun hs ht => absurd ht hs, fun hs ht => ?_, fun h => absurd h (by simp [hrst])⟩
    exact absurd (hs.symm.trans ht) nofun

/-- In `P_FINALIZED` only INIT changes the phase or the context (R27, R150). -/
theorem after_of_finalized {i : Instr} (h : i ≠ .init) (c : Context) :
    phaseAfter i .finalized = .finalized ∧ contextAfter i .finalized c = c := by
  cases i with
  | init => exact absurd rfl h
  | absb d | final | reserved => exact ⟨rfl, rfl⟩

/-- The digest port depends on `PHASE`, `BUSY` and `H` alone (R149). -/
theorem readDigest_congr {s t : State} (hp : s.phase = t.phase) (hb : s.busy = t.busy) (hh : s.h = t.h) :
    s.readDigest = t.readDigest := by
  simp [State.readDigest, State.dvalid, hp, hb, hh]

theorem not_dvalid_of_phase {s : State} (h : s.phase ≠ .finalized) : s.dvalid = false :=
  Bool.eq_false_iff.mpr fun hd => h ((dvalid_iff s).mp hd).1

/-- Settles O32: a reset and INIT lead out of `P_FINALIZED`; any other command leaves phase and context there. -/
theorem digestStaysUntilInitOrReset : Obligations.DigestStaysUntilInitOrReset := by
  intro s hfin hbusy
  obtain ⟨t, hstep, hedge⟩ := exists_edges s
  refine ⟨t, hstep, ?_⟩
  cases hedge with
  | reset hs => exact ⟨fun _ => rfl, fun ⟨c, hc, _⟩ => by simp [hs] at hc, fun h => absurd hs h⟩
  | nothing hs =>
    refine ⟨fun h => by simp [hs] at h, fun ⟨c, hc, _⟩ => by simp [hs] at hc, fun _ _ => ⟨rfl, hfin, ?_, rfl⟩⟩
    exact (dvalid_iff _).mpr ⟨hfin, hbusy⟩
  | accept c t hs _ hx =>
    have hphase : t.phase = phaseAfter (decode c) .finalized := by rw [hx.phase, State.pastEdge_phase, hfin]
    have hctx : t.ctx = contextAfter (decode c) .finalized s.ctx := by
      rw [hx.ctx, State.pastEdge_phase, hfin, State.pastEdge_ctx]
    refine ⟨fun h => by simp [hs] at h, ?_, fun _ hninit => ?_⟩
    · rintro ⟨c', hc', hinit⟩
      obtain rfl : c = c' := Edge.accept.inj (hs.symm.trans hc')
      rw [hinit] at hphase hctx
      exact ⟨congrArg Context.h hctx, not_dvalid_of_phase (by rw [hphase]; nofun)⟩
    · obtain ⟨hp, hc⟩ := after_of_finalized (hninit c hs) s.ctx
      have ht : t.phase = .finalized := hphase.trans hp
      have hb : t.busy = false := hx.idle hbusy
      have hh : t.h = s.h := congrArg Context.h (hctx.trans hc)
      exact ⟨hh, ht, (dvalid_iff t).mpr ⟨ht, hb⟩, readDigest_congr (ht.trans hfin.symm) (hb.trans hbusy.symm) hh⟩

end Sys2Proof.Machine
end

section
/-!
PROOFS. Decode and encode (30_encoding.md rules R70 to R76): the fields of a word built from its fields, so that a
command survives encoding; and a word decodes by its operation code and, in the ABSB row, its data field, by nothing else.
-/

namespace Sys2Proof.Machine

theorem opField_append (op : BitVec 2) (d : Byte) : opField (op ++ d) = op := by
  apply BitVec.eq_of_toNat_eq
  have hop := op.isLt
  have hd := d.isLt
  rw [opField_toNat, toNat_append_byte]
  omega

theorem dataField_append (op : BitVec 2) (d : Byte) : dataField (op ++ d) = d := by
  apply BitVec.eq_of_toNat_eq
  have hd := d.isLt
  rw [dataField, toNat_extractLsb'_div, toNat_append_byte]
  omega

theorem decode_encode (i : Instr) : decode (encode i) = i := by
  cases i with
  | absb d => simp [decode, encode, opField_append, dataField_append]
  | init | final | reserved => rfl

theorem encode_and_rowMask (i : Instr) : encode i &&& rowMask = rowMatch i := by
  rw [and_rowMask_eq_rowMatch, decode_encode]

/-- An ABSB word is made of the operation code of its row and the command's byte (R73). -/
theorem fields_of_decode_eq_absb {c : CmdWord} {d : Byte} (h : decode c = .absb d) :
    opField c = 0b01#2 ∧ dataField c = d := by
  rcases decode_rows c with ⟨-, -, e⟩ | ⟨-, -, hop, e⟩ | ⟨-, -, -, e⟩ | ⟨-, -, e⟩
  case inr.inl => exact ⟨hop, Instr.absb.inj (e.symm.trans h)⟩
  all_goals exact absurd (e.symm.trans h) nofun

/-- Two words of one row are one command, unless the row is ABSB's and their bytes differ. -/
theorem decode_congr {c c' : CmdWord} (hop : opField c = opField c')
    (hdata : ∀ d, decode c' = .absb d → dataField c = d) : decode c = decode c' := by
  unfold decode at *
  rw [hop]
  split
  · rfl
  · split
    case isTrue h0 h1 => exact congrArg _ (hdata _ (by rw [if_neg h0, if_pos h1]))
    case isFalse => rfl

theorem opField_eq_of_and_rowMask {c c' : CmdWord} (h : c &&& rowMask = c' &&& rowMask) : opField c = opField c' := by
  rw [and_rowMask, and_rowMask] at h
  simpa only [opField_append] using congrArg opField h

/-- The row by mask and match, and the byte, are all that a word's command depends on (R72, R73). -/
theorem decode_eq_iff (c : CmdWord) (i : Instr) :
    decode c = i ↔ c &&& rowMask = rowMatch i ∧ ∀ d : Byte, i = .absb d → dataField c = d := by
  constructor
  · rintro rfl
    exact ⟨and_rowMask_eq_rowMatch c, fun d hd => (fields_of_decode_eq_absb hd).2⟩
  · rintro ⟨hrow, hdata⟩
    have hop := opField_eq_of_and_rowMask (hrow.trans (encode_and_rowMask i).symm)
    have hsame : decode c = decode (encode i) := decode_congr hop fun d hd => hdata d ((decode_encode i).symm.trans hd)
    rw [hsame, decode_encode]

theorem encode_decode_of_absb {c : CmdWord} {d : Byte} (h : decode c = .absb d) : encode (decode c) = c := by
  obtain ⟨hop, rfl⟩ := fields_of_decode_eq_absb h
  rw [h, ← opField_append_dataField c, hop, dataField_append]
  rfl

/-- Settles O11: a command survives encoding, a word's command is its row and its byte, and an ABSB word is made of
nothing else. -/
theorem decodeAndEncodeAgree : Obligations.DecodeAndEncodeAgree :=
  ⟨fun i _ => decode_encode i, decode_eq_iff, fun _ _ => encode_decode_of_absb⟩

/-- Settles O10: each word of the list, evaluated. -/
theorem wordsDecodeAsTheSpecLists : Obligations.WordsDecodeAsTheSpecLists := by
  unfold Obligations.WordsDecodeAsTheSpecLists
  decide

end Sys2Proof.Machine
end

section
/-!
PROOFS. Noninterference (10_state.md rules R23, R35, R36): two contexts that agree up to stale bytes agree after every
command, so two instances that agree on the rest agree after every edge, and show the same on every port.
-/

namespace Sys2Proof.Machine

/-! Contexts that agree up to stale bytes. -/

/-- After the store at the occupancy, the held bytes and the stored one are equal. -/
theorem agree_storeByte {c d : Context} (h : c.Agree d) (x : Byte) {k : Fin 64} (hk : k ≤ occupancy c.len) :
    (c.absorbByte x).buf[k] = (d.absorbByte x).buf[k] := by
  obtain ⟨-, hlen, hbuf⟩ := h
  rw [context_absorbByte_buf, context_absorbByte_buf, ← hlen]
  rcases eq_or_lt_of_le hk with rfl | hlt
  · rw [storeByte_same, storeByte_same]
  · rw [storeByte_other _ _ hlt.ne, storeByte_other _ _ hlt.ne, hbuf k hlt]

theorem agree_absorbByte {c d : Context} (h : c.Agree d) (x : Byte) : (c.absorbByte x).Agree (d.absorbByte x) := by
  have hstored {k : Fin 64} := agree_storeByte h x (k := k)
  obtain ⟨hh, hlen, -⟩ := h
  have hocc := occupancy_countByte c.len
  refine ⟨?_, congrArg countByte hlen, fun k hk => hstored (by rw [context_absorbByte_len] at hk; omega)⟩
  by_cases hfull : (occupancy c.len).val = 63
  · have hbuf : (c.absorbByte x).buf = (d.absorbByte x).buf :=
      Vector.ext fun k hk => hstored (k := ⟨k, hk⟩) (Fin.le_def.mpr (by simp only; omega))
    rw [context_absorbByte_h_of_eq x hfull, context_absorbByte_h_of_eq x (hlen ▸ hfull), hh, hbuf]
  · rw [context_absorbByte_h_of_ne x hfull, context_absorbByte_h_of_ne x (hlen ▸ hfull), hh]

theorem agree_absorbBytes {c d : Context} (h : c.Agree d) (l : List Byte) :
    (c.absorbBytes l).Agree (d.absorbBytes l) := by
  induction l generalizing c d with
  | nil => exact h
  | cons x l ih => exact ih (agree_absorbByte h x)

@[simp] theorem occupancy_zero : occupancy 0#64 = 0 := rfl

/-- After INIT no byte is held, so any two contexts agree. -/
theorem agree_init (c d : Context) : c.init.Agree d.init :=
  ⟨rfl, rfl, fun k hk => absurd (occupancy_zero ▸ hk) (Fin.not_lt_zero k)⟩

/-- A command that leads out of `P_UNINIT` is INIT; from an open or closed message every command keeps agreement. -/
theorem agree_contextAfter {i : Instr} {p : Phase} {c d : Context} (h : p ≠ .uninit → c.Agree d)
    (hp : phaseAfter i p ≠ .uninit) : (contextAfter i p c).Agree (contextAfter i p d) := by
  cases i with
  | init => exact agree_init c d
  | absb x =>
    cases p with
    | uninit => exact absurd rfl hp
    | ready => exact agree_absorbByte (h nofun) x
    | finalized => exact h nofun
  | final =>
    cases p with
    | uninit => exact absurd rfl hp
    | ready =>
      have hc := h nofun
      have hlen : c.len = d.len := hc.2.1
      have hpad := agree_absorbBytes hc (paddingBytes c.len)
      rw [contextAfter, contextAfter, ← hlen]
      exact hpad
    | finalized => exact h nofun
  | reserved => exact h hp

/-! Instances that agree on what matters. -/

theorem executes_sameTo {i : Instr} {s s' t t' : State} (hs : Executes i s s') (ht : Executes i t t')
    (hidle : s.busy = false) (h : s.SameTo t) : s'.SameTo t' := by
  obtain ⟨hphase, herr, hbusy, hinputs, hctx⟩ := h
  refine ⟨?_, ?_, ?_, ?_, fun hp => ?_⟩
  · rw [hs.phase, ht.phase, hphase]
  · rw [hs.err, ht.err, hphase, herr]
  · rw [hs.idle hidle, ht.idle (hbusy ▸ hidle)]
  · rw [hs.inputs, ht.inputs, hinputs]
  · rw [hs.ctx, ht.ctx, ← hphase]
    exact agree_contextAfter hctx (hs.phase ▸ hp)

theorem pastEdge_sameTo {s t : State} (h : s.SameTo t) : s.pastEdge.SameTo t.pastEdge := by
  obtain ⟨hphase, herr, hbusy, hinputs, hctx⟩ := h
  exact ⟨hphase, herr, hbusy, congrArg List.tail hinputs, hctx⟩

/-- A reset leaves nothing that could differ but what does not matter in `P_UNINIT`. -/
theorem resetEvent_sameTo {s t : State} (h : s.SameTo t) : s.resetEvent.SameTo t.resetEvent := by
  obtain ⟨-, -, -, hinputs, -⟩ := h
  exact ⟨rfl, rfl, rfl, hinputs, fun hp => absurd rfl hp⟩

theorem cmdReady_congr {s t : State} (hb : s.busy = t.busy) (hi : s.inputs = t.inputs) : s.cmdReady = t.cmdReady := by
  rw [State.cmdReady, State.cmdReady, State.portIn, State.portIn, hb, hi]

/-- What an edge brings depends on the input ports and on `BUSY` alone (R185). -/
theorem sample_congr {s t : State} (hb : s.busy = t.busy) (hi : s.inputs = t.inputs) : s.sample = t.sample := by
  rw [State.sample, State.sample, cmdReady_congr hb hi, State.portIn, State.portIn, hi]

theorem step_sameTo {s t : State} (h : s.SameTo t) :
    ∃ s' t', step s = .next s' ∧ step t = .next t' ∧ s'.SameTo t' := by
  have hpast := pastEdge_sameTo h
  obtain ⟨-, -, hbusy, hinputs, -⟩ := h
  have hsample := sample_congr hbusy hinputs
  rw [step, step, ← hsample]
  rcases sample_cases s with ⟨-, hs⟩ | ⟨-, -, hidle, hs⟩ | ⟨-, -, hs⟩ <;> rw [hs]
  · exact ⟨_, _, rfl, rfl, resetEvent_sameTo hpast⟩
  · obtain ⟨s', hs'⟩ := exists_executes (decode s.portIn.cmd) s.pastEdge
    obtain ⟨t', ht'⟩ := exists_executes (decode s.portIn.cmd) t.pastEdge
    exact ⟨s', t', hs'.answers, ht'.answers, executes_sameTo hs' ht' hidle hpast⟩
  · exact ⟨_, _, rfl, rfl, hpast⟩

/-- The digest is shown in `P_FINALIZED` only, where `H` is among what agrees (R149). -/
theorem readDigest_of_sameTo {s t : State} (h : s.SameTo t) : s.readDigest = t.readDigest := by
  obtain ⟨hphase, -, hbusy, -, hctx⟩ := h
  by_cases hu : s.phase = .uninit
  · rw [readDigest_of_not_dvalid (not_dvalid_of_phase (by simp [hu])),
      readDigest_of_not_dvalid (not_dvalid_of_phase (by simp [← hphase, hu]))]
  · obtain ⟨hh, -, -⟩ := hctx hu
    exact readDigest_congr hphase hbusy hh

theorem ports_of_sameTo {s t : State} (h : s.SameTo t) : s.ports = t.ports := by
  have hread := readDigest_of_sameTo h
  obtain ⟨hphase, herr, hbusy, hinputs, -⟩ := h
  rw [State.ports, State.ports, cmdReady_congr hbusy hinputs, hread, State.errPort_eq, State.errPort_eq, herr,
    State.dvalid, State.dvalid, hphase, hbusy]

/-- Settles O45: a step keeps the agreement and the ports show no more than what agrees. -/
theorem hiddenStateNeverMatters : Obligations.HiddenStateNeverMatters := by
  intro n
  induction n with
  | zero => exact fun s t h => ⟨s, t, rfl, rfl, h, ports_of_sameTo h⟩
  | succ n ih =>
    intro s t h
    obtain ⟨s₁, t₁, hs, ht, h₁⟩ := step_sameTo h
    rw [core_run_succ hs, core_run_succ ht]
    exact ih s₁ t₁ h₁

end Sys2Proof.Machine
end

section
/-!
PROOFS. Order and pauses (20_memory.md rules R59, R61; 60_exceptions.md rules R163, R171): a command reads neither `ERR`
nor the host's list, so it does the same whatever stands there, and commands offered one after the other run in order.
-/

namespace Sys2Proof.Machine

/-! The two fields that no command reads. -/

/-- The same state with `ERR` raised or not, and another host's list. -/
def State.overlay (e : Bool) (l : List PortIn) (s : State) : State := { s with err := s.err || e, inputs := l }

theorem State.overlay_true (s : State) : s.overlay true s.inputs = { s with err := true } := by
  rw [State.overlay, Bool.or_true]

theorem State.overlay_false (s : State) (l : List PortIn) : s.overlay false l = { s with inputs := l } := by
  rw [State.overlay, Bool.or_false]

theorem foldEngine_overlay (e : Bool) (l : List PortIn) (g : Engine) (s : State) :
    (s.overlay e l).foldEngine g = (s.foldEngine g).overlay e l := rfl

theorem compressStep_overlay (e : Bool) (l : List PortIn) (s : State) :
    (s.overlay e l).compressStep = s.compressStep.overlay e l := by
  rw [State.compressStep, State.compressStep]
  exact foldEngine_overlay e l _ s

theorem takeByte_overlay (e : Bool) (l : List PortIn) (d : Byte) (s : State) :
    (s.overlay e l).takeByte d = (s.takeByte d).overlay e l := rfl

theorem absorbByte_overlay (e : Bool) (l : List PortIn) (d : Byte) (s : State) :
    (s.overlay e l).absorbByte d = (s.absorbByte d).overlay e l := by
  by_cases h : (occupancy s.len).val = 63
  · rw [absorbByte_of_eq d (s.overlay e l) h, absorbByte_of_eq d s h, takeByte_overlay, compressStep_overlay]
  · rw [absorbByte_of_ne d (s.overlay e l) h, absorbByte_of_ne d s h, takeByte_overlay]

theorem absorbBytes_overlay (e : Bool) (l : List PortIn) (data : List Byte) (s : State) :
    (s.overlay e l).absorbBytes data = (s.absorbBytes data).overlay e l := by
  induction data generalizing s with
  | nil => rfl
  | cons d data ih => rw [State.absorbBytes_cons, absorbByte_overlay, ih, State.absorbBytes_cons]

theorem finalize_overlay (e : Bool) (l : List PortIn) (s : State) :
    (s.overlay e l).finalize = s.finalize.overlay e l := by
  have hcapture : (s.overlay e l).capture = s.capture.overlay e l := rfl
  have hlen : (s.overlay e l).len = s.len := rfl
  rw [State.finalize, State.finalize, runFinalizer_eq_absorbBytes, runFinalizer_eq_absorbBytes, hcapture, hlen,
    absorbBytes_overlay]
  rfl

/-- The guard of ABSB and FINAL reads `PHASE` alone (R122, R140). -/
theorem inReady_overlay {e : Bool} {l : List PortIn} {f : State → State}
    (hf : ∀ s : State, f (s.overlay e l) = (f s).overlay e l) (s : State) :
    (s.overlay e l).inReady f = (s.inReady f).overlay e l := by
  have hbusy : ({ s.overlay e l with busy := true } : State) = State.overlay e l { s with busy := true } := rfl
  cases h : s.phase with
  | uninit =>
    rw [inReady_of_uninit f h, inReady_of_uninit (s := s.overlay e l) f h]
    rfl
  | finalized =>
    rw [inReady_of_finalized f h, inReady_of_finalized (s := s.overlay e l) f h]
    rfl
  | ready =>
    rw [inReady_of_ready f h, inReady_of_ready (s := s.overlay e l) f h, State.busyWhile, hbusy, hf]
    rfl

/-- A command answers the same, up to the two fields it does not read. -/
theorem exec_overlay {i : Instr} {s t : State} (h : exec i s = .next t) (e : Bool) (l : List PortIn) :
    exec i (s.overlay e l) = .next (t.overlay e l) := by
  cases i with
  | init => rw [← Host.Outcome.next.inj h]; rfl
  | absb d => rw [exec_absb, inReady_overlay (absorbByte_overlay e l d), ← Host.Outcome.next.inj h]
  | final => rw [exec_final, inReady_overlay (finalize_overlay e l), ← Host.Outcome.next.inj h]
  | reserved => rw [← Host.Outcome.next.inj h]; rfl

/-- Settles O28: `ERR` is one of the two fields that no command reads. -/
theorem errChangesNoBehaviour : Obligations.ErrChangesNoBehaviour := by
  intro i s t h
  have hinputs : t.inputs = s.inputs := (executes_of_exec h).inputs
  rw [← State.overlay_true, ← State.overlay_true, hinputs]
  exact exec_overlay h true s.inputs

/-! Commands at successive edges (R61). -/

theorem step_offer {s : State} (h : s.busy = false) (c : CmdWord) (l : List PortIn) :
    step { s with inputs := PortIn.offer c :: l } = exec (decode c) { s with inputs := l } :=
  step_of_accept (s := { s with inputs := PortIn.offer c :: l }) rfl ((cmdReady_iff _).mpr ⟨h, rfl⟩)

/-- Putting back the host's list that is there changes nothing. -/
theorem withInputs_of_eq {s : State} {l : List PortIn} (h : s.inputs = l) : { s with inputs := l } = s := by
  rw [← h]

theorem offers_cons (i : Instr) (cmds : List Instr) (rest : List PortIn) :
    offers (i :: cmds) ++ rest = PortIn.offer (encode i) :: (offers cmds ++ rest) := rfl

theorem execAll_cons {i : Instr} {s t : State} (h : exec i s = .next t) (cmds : List Instr) :
    execAll (i :: cmds) s = execAll cmds t := by
  rw [execAll, h]

/-- Settles O8: the first offer is executed, with the others still to come, as it is with none to come. -/
theorem commandsRunInOrder : Obligations.CommandsRunInOrder := by
  intro cmds
  induction cmds with
  | nil => exact fun _ _ _ => rfl
  | cons i cmds ih =>
    intro s rest hidle
    obtain ⟨t, hx⟩ := exists_executes i { s with inputs := rest }
    have hstep : step { s with inputs := offers (i :: cmds) ++ rest } =
        .next { t with inputs := offers cmds ++ rest } := by
      have hexec := exec_overlay hx.answers false (offers cmds ++ rest)
      rw [State.overlay_false, State.overlay_false] at hexec
      rw [offers_cons, step_offer hidle, decode_encode]
      exact hexec
    rw [List.length_cons, core_run_succ hstep, execAll_cons hx.answers, ih t rest (hx.idle hidle),
      withInputs_of_eq hx.inputs]

/-! Pauses (R171, R186). -/

theorem pastEdge_of_no_inputs {s : State} (h : s.inputs = []) : s.pastEdge = s :=
  withInputs_of_eq (by rw [h]; rfl)

/-- Settles O47: an edge with neither `rst` nor an offer moves the host's list alone. -/
theorem pausesChangeNothing : Obligations.PausesChangeNothing := by
  refine ⟨fun s h => ?_, fun pause => ?_⟩
  · have hport : s.portIn = PortIn.idle := by rw [State.portIn, h]; rfl
    refine ⟨hport, ?_⟩
    rw [step_of_no_accept (by rw [hport]; rfl) (.inl (by rw [hport]; rfl)), pastEdge_of_no_inputs h]
  · induction pause with
    | nil => exact fun _ _ _ => rfl
    | cons p pause ih =>
      intro s rest hquiet
      obtain ⟨⟨hrst, hvalid⟩, hmore⟩ := List.forall_mem_cons.mp hquiet
      have hstep : step { s with inputs := p :: pause ++ rest } = .next { s with inputs := pause ++ rest } :=
        step_of_no_accept (s := { s with inputs := p :: pause ++ rest }) hrst (.inl hvalid)
      rw [List.length_cons, core_run_succ hstep]
      exact ih s rest hmore

/-! Repeating a command (R59). -/

theorem executes_absb_len {d : Byte} {s t : State} (hs : s.phase = .ready) (hx : Executes (.absb d) s t) :
    t.phase = .ready ∧ t.len = s.len + 8 := by
  have hphase := hx.phase
  have hctx := hx.ctx
  rw [hs] at hphase hctx
  exact ⟨hphase, congrArg Context.len hctx⟩

/-- Settles O15: INIT by what it writes, a reject by its one write, FINAL by the phase it leads to, ABSB by its
count. -/
theorem whatRepeatingACommandDoes : Obligations.WhatRepeatingACommandDoes := by
  refine ⟨fun s t h => ?_, fun i s t hrej h => ?_, fun s t hready h => ?_, fun s t u d e hready hd he => ?_⟩
  · obtain rfl : s.openMessage = t := Host.Outcome.next.inj h
    rfl
  · obtain rfl := Host.Outcome.next.inj ((rejectSetsErrAndNothingElse i s hrej).symm.trans h)
    exact rejectSetsErrAndNothingElse i { s with err := true } hrej
  · have hphase : t.phase = phaseAfter .final s.phase := (executes_of_exec h).phase
    rw [hready] at hphase
    exact rejectSetsErrAndNothingElse .final t (by rw [hphase]; rfl)
  · obtain ⟨ht, hlen⟩ := executes_absb_len hready (executes_of_exec hd)
    obtain ⟨-, hlen'⟩ := executes_absb_len ht (executes_of_exec he)
    rw [hlen', hlen, BitVec.add_assoc]
    rfl

end Sys2Proof.Machine
end

section
/-!
PROOFS. INIT and ABSB in full, the reset event, and a step that accepts a word (41_streaming.md sections 1 and 2;
70_reset_and_hazards.md section 1; 30_encoding.md section 1).
-/

namespace Sys2Proof.Machine

/-! INIT and ABSB. -/

@[simp] theorem heldBytes_init (c : Context) : c.init.heldBytes = [] := by
  simp [Context.heldBytes, Context.init]

/-- Settles O14: INIT's next state is named, with the IV written out. -/
theorem initOpensAMessageInEveryPhase : Obligations.InitOpensAMessageInEveryPhase := fun s =>
  ⟨s.openMessage, exec_init s, rfl, congrArg Fin.val occupancy_zero, heldBytes_init s.ctx,
    not_dvalid_of_phase (s := s.openMessage) nofun⟩

/-- A byte that completes no block leaves the engine and the serial number (R124). -/
theorem absorbByte_eng_free_of_ne (d : Byte) {s : State} (h : (occupancy s.len).val ≠ 63) :
    (s.absorbByte d).eng = s.eng ∧ (s.absorbByte d).free = s.free := by
  rw [absorbByte_of_ne d s h]
  exact ⟨rfl, rfl⟩

/-- Settles O16: the context by `AbsorbByte`, and every other register by what `AbsorbByte` keeps. -/
theorem absbInReadyAbsorbsTheByte : Obligations.AbsbInReadyAbsorbsTheByte := by
  intro s d hready
  have hctx : (s.busyWhile (State.absorbByte d)).ctx = s.ctx.absorbByte d := absorbByte_ctx d { s with busy := true }
  have hlen := congrArg Context.len hctx
  have hbuf := congrArg Context.buf hctx
  have hh := congrArg Context.h hctx
  simp only [State.ctx_len, State.ctx_buf, State.ctx_h, context_absorbByte_len, context_absorbByte_buf] at hlen hbuf hh
  refine ⟨_, (executes_absb_of_ready d hready).answers, hlen, ?_, fun k hk => ?_, ?_, ?_, ?_, ?_, ?_, ?_, rfl, ?_,
    absorbByte_eng_free_of_ne d (s := { s with busy := true })⟩
  · rw [hbuf, storeByte_same]
  · rw [hbuf, storeByte_other _ _ hk]
  · rw [hh, hbuf]
    rfl
  · rw [hlen, occupancy_countByte]
  · rw [State.busyWhile_phase, absorbByte_phase, hready]
  · rw [State.busyWhile_err, absorbByte_err]
  · rw [State.busyWhile_fc, absorbByte_fc]
  · rw [State.busyWhile_fstep, absorbByte_fstep]
  · rw [State.busyWhile_inputs, absorbByte_inputs]

/-! The reset event (R36, R180, R181). -/

/-- Settles O1: the fixed registers and the ports of `State.reset`, evaluated. -/
theorem resetLeavesTheFixedRegisters : Obligations.ResetLeavesTheFixedRegisters :=
  ⟨rfl, rfl, rfl, rfl, rfl, rfl, rfl⟩

/-- Settles O2: in `P_UNINIT` the invariant asks for `BUSY = 0` alone. -/
theorem resetMeetsTheInvariant : Obligations.ResetMeetsTheInvariant := ⟨rfl, fun h => absurd rfl h, nofun⟩

/-- Settles O4: the step under `rst` is the reset event, each of whose registers is named. -/
theorem resetEdgeIsTheResetEvent : Obligations.ResetEdgeIsTheResetEvent := by
  intro s hrst
  refine ⟨by simp [State.cmdReady, hrst], _, step_of_rst hrst, rfl, rfl, rfl, rfl,
    ⟨rfl, rfl, fun k => ?_, rfl, fun k => ?_, rfl, rfl, rfl⟩, fun h => (cmdReady_iff _).mpr ⟨rfl, h⟩,
    fun h => ⟨_, step_of_rst h, rfl, rfl, rfl⟩⟩
  · simp
  · simp [freeSchedule]

theorem resetEvent_congr {s t : State} (hi : s.inputs = t.inputs) (hf : s.free = t.free) :
    s.resetEvent = t.resetEvent := by
  rw [State.resetEvent, State.resetEvent, hi, hf]

/-- Settles O5: the reset event reads the host's list and the serial number, and nothing else. -/
theorem resetForgetsWhatWasInProgress : Obligations.ResetForgetsWhatWasInProgress := by
  intro s t hrst hi hf
  have hrst' : t.portIn.rst = true := by rwa [State.portIn, ← hi]
  rw [step_of_rst hrst, step_of_rst hrst',
    resetEvent_congr (s := s.pastEdge) (t := t.pastEdge) (congrArg List.tail hi) hf]

/-! A word placed at the next edge (R70, R71). -/

theorem decodeTableWord_eq_some {nbits w : Nat} {i : Instr} (h : decodeTableWord nbits w = some i) :
    ∃ c, cmdWordOfNat (tableBits nbits w) = .ok c ∧ decode c = i := by
  unfold decodeTableWord decodeNat at h
  cases hc : cmdWordOfNat (tableBits nbits w) with
  | error e => simp [hc, Except.map] at h
  | ok c => exact ⟨c, rfl, by simpa [hc, Except.map] using h⟩

theorem withFetchWord_of_ok {nbits w : Nat} {c : CmdWord} (s : State)
    (h : cmdWordOfNat (tableBits nbits w) = .ok c) :
    s.withFetchWord nbits w = { s with busy := false, inputs := PortIn.offer c :: s.inputs } := by
  rw [State.withFetchWord, State.placeWord, h]

/-- Settles O6: an accepted word is executed, and `withFetchWord` makes the next edge accept its word. -/
theorem stepRunsTheDecodedCommand : Obligations.StepRunsTheDecodedCommand := by
  refine ⟨fun s hrst hvalid hidle => step_of_accept hvalid ((cmdReady_iff s).mpr ⟨hidle, hrst⟩), ?_⟩
  intro s nbits w i h
  obtain ⟨c, hc, rfl⟩ := decodeTableWord_eq_some h
  rw [withFetchWord_of_ok s hc]
  exact step_offer (s := { s with busy := false }) rfl c s.inputs

end Sys2Proof.Machine
end

section
/-!
PROOFS. The compression step (40_compression.md rules R90, R100, R103, R106): `Compress` against its pseudocode round by
round, the engine, the sixteen-word window, the other forms of the stage functions, and rotation.
-/

namespace Sys2Proof.Machine

/-- Settles O35: the hash by the fold of the engine's run, and `T` by the number of rounds. -/
theorem engineComputesCompress : Obligations.EngineComputesCompress := by
  intro h blk g
  obtain ⟨ht, -⟩ := engine_run_of_rounds (afterRounds_rounds h blk g)
  exact ⟨fold_engine_run h blk g, ht⟩

/-! The pseudocode (R90 to R98). -/

/-- `w[t]`, for `t < 80`. -/
def scheduleAt (blk : Block) (t : Nat) : Word := if h : t < 80 then (schedule blk)[t] else 0

/-- The working variables after `n <= 80` rounds. -/
def workAt (h : Hash) (blk : Block) (n : Nat) : Work :=
  if hn : n ≤ 80 then roundsTo (schedule blk) n hn (loadWork h) else loadWork h

theorem scheduleAt_of_lt (blk : Block) {t : Nat} (h : t < 80) : scheduleAt blk t = (schedule blk)[t] := dif_pos h

theorem workAt_of_le (h : Hash) (blk : Block) {n : Nat} (hn : n ≤ 80) :
    workAt h blk n = roundsTo (schedule blk) n hn (loadWork h) := dif_pos hn

theorem scheduleAt_recurrence (blk : Block) {t : Nat} (h : 16 ≤ t) (ht : t < 80) : scheduleAt blk t =
    rotl (scheduleAt blk (t - 3) ^^^ scheduleAt blk (t - 8) ^^^ scheduleAt blk (t - 14) ^^^
      scheduleAt blk (t - 16)) 1 := by
  have hbefore (k : Nat) : t - k < 80 := by omega
  simp only [scheduleAt_of_lt blk ht, scheduleAt_of_lt blk (hbefore _)]
  exact schedule_recurrence blk ⟨h, ht⟩

theorem workAt_succ (h : Hash) (blk : Block) {t : Nat} (ht : t < 80) :
    workAt h blk (t + 1) = workRound t (workAt h blk t) (scheduleAt blk t) := by
  rw [workAt_of_le h blk ht, workAt_of_le h blk (Nat.le_of_lt ht), scheduleAt_of_lt blk ht, roundsTo]

/-- The stage of a round, `t div 20`, by the bounds of the four stages. -/
theorem stage_cases (t : Nat) : (t < 20 ∧ t / 20 = 0) ∨ (¬ t < 20 ∧ t < 40 ∧ t / 20 = 1) ∨
    (¬ t < 20 ∧ ¬ t < 40 ∧ t < 60 ∧ t / 20 = 2) ∨ (¬ t < 20 ∧ ¬ t < 40 ∧ ¬ t < 60 ∧ ∃ n, t / 20 = n + 3) := by
  have hlast : ¬ t < 60 → ∃ n, t / 20 = n + 3 := fun h => ⟨t / 20 - 3, by omega⟩
  by_cases h : t < 60
  · omega
  · exact .inr (.inr (.inr ⟨by omega, by omega, h, hlast h⟩))

theorem mix_eq (t : Nat) (b c d : Word) : mix t b c d =
    if t < 20 then (b &&& c) ||| (~~~b &&& d)
    else if t < 40 then b ^^^ c ^^^ d
    else if t < 60 then (b &&& c) ||| (b &&& d) ||| (c &&& d)
    else b ^^^ c ^^^ d := by
  rcases stage_cases t with ⟨h0, hs⟩ | ⟨h0, h1, hs⟩ | ⟨h0, h1, h2, hs⟩ | ⟨h0, h1, h2, n, hs⟩ <;>
    simp [mix, *, choose, parity, majority]

theorem roundConst_eq (t : Nat) : roundConst t =
    if t < 20 then 0x5a827999 else if t < 40 then 0x6ed9eba1 else if t < 60 then 0x8f1bbcdc else 0xca62c1d6 := by
  rcases stage_cases t with ⟨h0, hs⟩ | ⟨h0, h1, hs⟩ | ⟨h0, h1, h2, hs⟩ | ⟨h0, h1, h2, n, hs⟩ <;>
    simp [roundConst, *]

theorem compress_eq_fold_workAt (h : Hash) (blk : Block) : compress h blk = fold h (workAt h blk 80) := by
  obtain ⟨n, hn, rfl, hcompress⟩ := compress_open h blk
  rw [hcompress, workAt_of_le h blk hn]

/-- Settles O33: the schedule and the working variables of the model, round by round, with each stage written out. -/
theorem compressFollowsItsPseudocode : Obligations.CompressFollowsItsPseudocode := by
  intro h blk
  refine ⟨scheduleAt blk, workAt h blk, fun i => ?_, fun t => scheduleAt_recurrence blk, ?_, fun t ht => ?_,
    compress_eq_fold_workAt h blk⟩
  · rw [scheduleAt_of_lt blk (by omega), schedule_parsed blk i.isLt]
    rfl
  · rw [workAt_of_le h blk (Nat.zero_le 80)]
    rfl
  · rw [workAt_succ h blk ht, workRound, roundTemp, mix_eq, roundConst_eq]

/-! The sixteen-word window (R106 (a)). -/

/-- After `n` rounds slot `k mod 16` holds word `k`, for the parsed words not yet replaced and the last sixteen. -/
def HoldsWindow (blk : Block) (n : Nat) (s : Vector Word 16) : Prop :=
  ∀ k (hk : k < 80), n ≤ k + 16 → k < 16 ∨ k < n → s[k % 16]'(Nat.mod_lt k (by decide)) = (schedule blk)[k]

theorem holdsWindow_parse (blk : Block) : HoldsWindow blk 0 (parse blk) := by
  intro k hk _ hin
  have h16 : k < 16 := by omega
  rw [schedule_parsed blk h16]
  simp only [Nat.mod_eq_of_lt h16]
  exact parse_getElem blk ⟨k, h16⟩

/-- The word that round `t` takes from the window, parsed or computed, is word `t` of the schedule. -/
theorem windowRound_eq {blk : Block} {t : Nat} (ht : t < 80) (x : Work) {s : Vector Word 16} (h : HoldsWindow blk t s) :
    windowRound t (x, s) =
      (workRound t x (schedule blk)[t], s.set (t % 16) (schedule blk)[t] (Nat.mod_lt t (by decide))) := by
  unfold windowRound
  by_cases h16 : 16 ≤ t
  · have hslot : t % 16 = (t - 16) % 16 := by omega
    have hword : rotl (s[(t - 3) % 16] ^^^ s[(t - 8) % 16] ^^^ s[(t - 14) % 16] ^^^ s[t % 16]) 1 = (schedule blk)[t] := by
      simp only [hslot]
      rw [h (t - 3) (by omega) (by omega) (by omega), h (t - 8) (by omega) (by omega) (by omega),
        h (t - 14) (by omega) (by omega) (by omega), h (t - 16) (by omega) (by omega) (by omega),
        schedule_recurrence blk ⟨h16, ht⟩, scheduleWord]
    simp only [if_pos h16, hword]
  · simp only [if_neg h16, h t ht (by omega) (by omega)]

/-- Word `t` goes to the slot of word `t - 16`, which no later round reads. -/
theorem holdsWindow_set {blk : Block} {t : Nat} {s : Vector Word 16} (ht : t < 80) (h : HoldsWindow blk t s) :
    HoldsWindow blk (t + 1) (s.set (t % 16) (schedule blk)[t] (Nat.mod_lt t (by decide))) := by
  intro k hk hwindow hin
  by_cases hslot : t % 16 = k % 16
  · obtain rfl : t = k := by omega
    exact Vector.getElem_set_self _
  · rw [Vector.getElem_set_ne _ _ hslot]
    exact h k hk (by omega) (by omega)

theorem windowRounds_eq (h : Hash) (blk : Block) {n : Nat} (hn : n ≤ 80) :
    (windowRounds n (loadWork h, parse blk)).1 = workAt h blk n ∧
      HoldsWindow blk n (windowRounds n (loadWork h, parse blk)).2 := by
  induction n with
  | zero => exact ⟨(workAt_of_le h blk hn).symm, holdsWindow_parse blk⟩
  | succ n ih =>
    obtain ⟨hwork, hwindow⟩ := ih (by omega)
    rw [windowRounds, windowRound_eq hn _ hwindow]
    refine ⟨?_, holdsWindow_set hn hwindow⟩
    rw [workAt_succ h blk hn, scheduleAt_of_lt blk hn, hwork]

/-- `compressWindow` opened, with its eighty rounds behind a name. -/
theorem compressWindow_open (h : Hash) (blk : Block) :
    ∃ n, n = 80 ∧ compressWindow h blk = fold h (windowRounds n (loadWork h, parse blk)).1 := by
  refine ⟨80, rfl, ?_⟩
  unfold compressWindow
  rfl

/-- Settles O36: after eighty rounds the window's working variables are those of `Compress`. -/
theorem slidingWindowComputesCompress : Obligations.SlidingWindowComputesCompress := by
  intro h blk
  obtain ⟨n, rfl, hopen⟩ := compressWindow_open h blk
  obtain ⟨hwork, -⟩ := windowRounds_eq h blk (Nat.le_refl 80)
  rw [hopen, hwork, compress_eq_fold_workAt]

/-! The other forms of the stage functions (R96, R106 (b)): each holds bit by bit. -/

theorem choose_bit (x y z : Word) (i : Nat) (h : i < 32) : (choose x y z)[i] = (x[i] && y[i] || !x[i] && z[i]) := by
  simp [choose]

theorem majority_bit (x y z : Word) (i : Nat) (h : i < 32) :
    (majority x y z)[i] = (x[i] && y[i] || x[i] && z[i] || y[i] && z[i]) := by
  simp [majority]

theorem choose_eq_xor (x y z : Word) : choose x y z = z ^^^ (x &&& (y ^^^ z)) := by
  have hbit : ∀ p q r : Bool, (p && q || !p && r) = (r ^^ (p && (q ^^ r))) := by decide
  ext i hi
  rw [choose_bit, BitVec.getElem_xor, BitVec.getElem_and, BitVec.getElem_xor, hbit]

theorem majority_eq_or (x y z : Word) : majority x y z = (x &&& y) ||| (z &&& (x ||| y)) := by
  have hbit : ∀ p q r : Bool, (p && q || p && r || q && r) = (p && q || r && (p || q)) := by decide
  ext i hi
  rw [majority_bit, BitVec.getElem_or, BitVec.getElem_and, BitVec.getElem_and, BitVec.getElem_or, hbit]

theorem majority_eq_xor (x y z : Word) : majority x y z = (x &&& y) ^^^ (x &&& z) ^^^ (y &&& z) := by
  have hbit : ∀ p q r : Bool, (p && q || p && r || q && r) = ((p && q ^^ p && r) ^^ q && r) := by decide
  ext i hi
  rw [majority_bit, BitVec.getElem_xor, BitVec.getElem_xor, BitVec.getElem_and, BitVec.getElem_and, BitVec.getElem_and,
    hbit]

theorem choose_ones (y z : Word) : choose 0xffffffff y z = y := by
  have hones : (0xffffffff : Word) = BitVec.allOnes 32 := rfl
  rw [choose, hones, BitVec.allOnes_and, BitVec.not_allOnes, BitVec.zero_and, BitVec.or_zero]

theorem choose_zero (y z : Word) : choose 0 y z = z := by
  have hzero : (0 : Word) = 0#32 := rfl
  rw [choose, hzero, BitVec.zero_and, BitVec.not_zero, BitVec.allOnes_and, BitVec.zero_or]

theorem parity_same (x z : Word) : parity x x z = z := by
  rw [parity, BitVec.xor_self, BitVec.zero_xor]

theorem majority_same (x z : Word) : majority x x z = x := by
  have hbit : ∀ p r : Bool, (p && p || p && r || p && r) = p := by decide
  ext i hi
  rw [majority_bit, hbit]

/-- Settles O37: the three other forms and the four corner cases. -/
theorem stageFunctionsHaveTheirOtherForms : Obligations.StageFunctionsHaveTheirOtherForms := fun b c d =>
  ⟨choose_eq_xor b c d, majority_eq_or b c d, majority_eq_xor b c d, choose_ones c d, choose_zero c d, parity_same b d,
    majority_same b d⟩

/-! Rotation (R100). -/

theorem rotl_eq_rotateLeft (x : Word) {n : Nat} (hn : n < 32) : rotl x n = x.rotateLeft n := by
  rw [rotl, BitVec.rotateLeft_def, Nat.mod_eq_of_lt hn]

/-- Bit `i` goes to bit `i + n`, around the end. -/
theorem rotl_getLsbD (x : Word) {n i : Nat} (hn : n < 32) (hi : i < 32) :
    (rotl x n).getLsbD ((i + n) % 32) = x.getLsbD i := by
  rw [rotl_eq_rotateLeft x hn, BitVec.getLsbD_rotateLeft, Nat.mod_eq_of_lt hn]
  by_cases hwrap : i + n < 32
  · have hpos : (i + n) % 32 = i + n := Nat.mod_eq_of_lt hwrap
    simp [hpos, hwrap]
  · have hpos : (i + n) % 32 = i + n - 32 := by omega
    have hback : 32 - n + (i + n - 32) = i := by omega
    have hlow : i + n - 32 < n := by omega
    simp [hpos, hback, hlow]

/-- The positions that the bits go to, in order, are the positions, rotated. -/
theorem range_rotate (w n : Nat) : (List.range w).rotate n = (List.range w).map fun i => (i + n) % w := by
  apply List.ext_getElem
  · simp
  · simp [List.getElem_rotate]

theorem rotl_countP (x : Word) {n : Nat} (hn : n < 32) :
    (List.range 32).countP (rotl x n).getLsbD = (List.range 32).countP x.getLsbD := by
  calc
    (List.range 32).countP (rotl x n).getLsbD = ((List.range 32).rotate n).countP (rotl x n).getLsbD :=
      ((List.range 32).rotate_perm n).symm.countP_eq _
    _ = (List.range 32).countP x.getLsbD := by
      rw [range_rotate, List.countP_map]
      refine List.countP_congr fun i hi => ?_
      rw [Function.comp_apply, rotl_getLsbD x hn (List.mem_range.mp hi)]

/-- Rotations by 30 and by 2 take each bit once around. -/
theorem rotl_thirty_two (x : Word) : rotl (rotl x 30) 2 = x := by
  apply BitVec.eq_of_getLsbD_eq
  intro i hi
  have haround : ((i + 30) % 32 + 2) % 32 = i := by omega
  have hback := rotl_getLsbD (rotl x 30) (n := 2) (by omega) (Nat.mod_lt (i + 30) (by decide))
  rw [haround, rotl_getLsbD x (by omega) hi] at hback
  exact hback

/-- Settles O38: where each bit goes, from which the number of one bits and the two identities follow. -/
theorem rotationLosesNoBit : Obligations.RotationLosesNoBit := by
  intro x
  have hlt : ∀ n ∈ [1, 5, 30], n < 32 := by decide
  exact ⟨fun n hn _ hi => rotl_getLsbD x (hlt n hn) hi, fun n hn => rotl_countP x (hlt n hn), rotl_thirty_two x,
    BitVec.or_comm _ _⟩

end Sys2Proof.Machine
end

section
/-!
PROOFS. A context and the byte stream it has absorbed (20_memory.md rule R55; 41_streaming.md rules R126, R127, R130):
`H` is folded through the stream's whole blocks and the buffer holds what is left over. It is proved of `AbsorbByte` and of the
document's chunk algorithm alike, so the two agree.
-/

namespace Sys2Proof.Machine

/-! A stream, block by block. -/

/-- What a stream leaves from `h` on: the hash of its whole blocks, and the bytes left over. -/
def absorbed (h : Hash) (stream : List Byte) : Hash × List Byte :=
  (hashBlocks h stream (stream.length / 64), stream.drop (64 * (stream.length / 64)))

theorem absorbed_of_lt (h : Hash) {l : List Byte} (hl : l.length < 64) : absorbed h l = (h, l) := by
  rw [absorbed, Nat.div_eq_of_lt hl]
  rfl

theorem absorbed_eq_iff {h k : Hash} {stream held : List Byte} : absorbed h stream = (k, held) ↔
    hashBlocks h stream (stream.length / 64) = k ∧ stream.drop (64 * (stream.length / 64)) = held :=
  Prod.mk_inj

theorem absorbed_held_length {h k : Hash} {stream held : List Byte} (ha : absorbed h stream = (k, held)) :
    held.length = stream.length % 64 := by
  obtain ⟨-, rfl⟩ := absorbed_eq_iff.mp ha
  rw [List.length_drop]
  omega

theorem streamBlock_eq_blockOf_drop (stream : List Byte) (k : Nat) :
    streamBlock stream k = blockOf (stream.drop (64 * k)) := by
  simp [streamBlock, blockOf, List.getD_eq_getElem?_getD, List.getElem?_drop]

theorem blockOf_append {l : List Byte} (m : List Byte) (hl : 64 ≤ l.length) : blockOf (l ++ m) = blockOf l := by
  apply Vector.ext
  intro i hi
  have hin : i < l.length := by omega
  simp [blockOf, List.getD_eq_getElem?_getD, List.getElem?_append_left hin]

/-- Bytes behind the first `n` blocks do not change their hash. -/
theorem hashBlocks_append (h : Hash) {stream : List Byte} (l : List Byte) {n : Nat} (hn : 64 * n ≤ stream.length) :
    hashBlocks h (stream ++ l) n = hashBlocks h stream n := by
  induction n with
  | zero => rfl
  | succ n ih =>
    have hblock : 64 ≤ (stream.drop (64 * n)).length := by rw [List.length_drop]; omega
    rw [hashBlocks, hashBlocks, ih (by omega), streamBlock_eq_blockOf_drop, streamBlock_eq_blockOf_drop,
      List.drop_append_of_le_length (by omega), blockOf_append l hblock]

/-- Bytes that complete no block are left over behind those already left over. -/
theorem absorbed_append_short {h k : Hash} {stream held l : List Byte} (ha : absorbed h stream = (k, held))
    (hl : held.length + l.length < 64) : absorbed h (stream ++ l) = (k, held ++ l) := by
  have hlength := absorbed_held_length ha
  obtain ⟨rfl, rfl⟩ := absorbed_eq_iff.mp ha
  have hblocks : (stream ++ l).length / 64 = stream.length / 64 := by rw [List.length_append]; omega
  rw [absorbed_eq_iff, hblocks]
  exact ⟨hashBlocks_append h l (by omega), List.drop_append_of_le_length (by omega)⟩

/-- Bytes that complete one block have it compressed, and nothing is left over. -/
theorem absorbed_append_block {h k : Hash} {stream held l : List Byte} (ha : absorbed h stream = (k, held))
    (hl : held.length + l.length = 64) : absorbed h (stream ++ l) = (compress k (blockOf (held ++ l)), []) := by
  have hlength := absorbed_held_length ha
  obtain ⟨rfl, rfl⟩ := absorbed_eq_iff.mp ha
  have hblocks : (stream ++ l).length / 64 = stream.length / 64 + 1 := by rw [List.length_append]; omega
  rw [absorbed_eq_iff, hblocks]
  refine ⟨?_, List.drop_eq_nil_of_le (by rw [List.length_append]; omega)⟩
  rw [hashBlocks, hashBlocks_append h l (by omega), streamBlock_eq_blockOf_drop,
    List.drop_append_of_le_length (by omega)]

/-! The buffer, filled from an index on. -/

theorem storeByte_eq_fillFrom (buf : Block) (j : Fin 64) (d : Byte) : storeByte buf j d = fillFrom buf j.val [d] := by
  apply Vector.ext
  intro i hi
  simp [storeByte, fillFrom, Vector.getElem_set, Vector.getElem_setIfInBounds]

theorem take_setIfInBounds (buf : Block) {j : Nat} (d : Byte) (hj : j < 64) :
    (buf.setIfInBounds j d).toList.take (j + 1) = buf.toList.take j ++ [d] := by
  have hset : (buf.setIfInBounds j d).toList = buf.toList.set j d := by simp
  have hin : j < (buf.toList.set j d).length := by simpa using hj
  rw [hset, List.take_succ_eq_append_getElem hin, List.take_set_of_le (Nat.le_refl j), List.getElem_set_self]

/-- Bytes filled in from index `j` on stand behind the `j` bytes before them. -/
theorem take_fillFrom (buf : Block) {j : Nat} (l : List Byte) (hfit : j + l.length ≤ 64) :
    (fillFrom buf j l).toList.take (j + l.length) = buf.toList.take j ++ l := by
  induction l generalizing buf j with
  | nil => simp [fillFrom]
  | cons d l ih =>
    rw [List.length_cons] at hfit
    rw [fillFrom, List.length_cons, ← Nat.add_assoc, Nat.add_right_comm, ih _ (by omega),
      take_setIfInBounds buf d (by omega), List.append_assoc]
    rfl

theorem blockOf_toList (buf : Block) : blockOf buf.toList = buf := by
  apply Vector.ext
  intro i hi
  simp [blockOf, List.getD_eq_getElem?_getD]

/-! A context that has absorbed a stream. -/

/-- The context holds `stream`, absorbed from hash `h` on: its hash and its held bytes are what the stream leaves. -/
def Context.Holds (c : Context) (h : Hash) (stream : List Byte) : Prop := absorbed h stream = (c.h, c.heldBytes)

theorem heldBytes_length (c : Context) : c.heldBytes.length = (occupancy c.len).val := by
  simp [Context.heldBytes]

theorem heldBytes_getElem? (c : Context) {k : Fin 64} (hk : k < occupancy c.len) :
    c.heldBytes[k.val]? = some c.buf[k] := by
  rw [Context.heldBytes, List.getElem?_take_of_lt hk]
  simp

theorem holds_heldBytes (c : Context) : c.Holds c.h c.heldBytes :=
  absorbed_of_lt c.h (by rw [heldBytes_length]; exact Fin.isLt _)

theorem holds_init (c : Context) : c.init.Holds iv [] := by
  rw [Context.Holds, heldBytes_init]
  rfl

theorem occupancy_of_holds {c : Context} {h : Hash} {stream : List Byte} (hc : c.Holds h stream) :
    (occupancy c.len).val = stream.length % 64 := by
  rw [← heldBytes_length, absorbed_held_length hc]

/-- A context whose buffer is filled behind the held bytes, short of its end, with the counter to match. -/
theorem heldBytes_fillFrom (c : Context) {l : List Byte} {len : Dword} (h : Hash)
    (hlen : (occupancy len).val = (occupancy c.len).val + l.length) :
    (Context.mk h len (fillFrom c.buf (occupancy c.len).val l)).heldBytes = c.heldBytes ++ l := by
  have hlt := (occupancy len).isLt
  rw [Context.heldBytes, Context.heldBytes, hlen]
  exact take_fillFrom c.buf l (by omega)

theorem heldBytes_of_occupancy {c : Context} (h : (occupancy c.len).val = 0) : c.heldBytes = [] := by
  rw [Context.heldBytes, h, List.take_zero]

/-- A buffer filled to its end is the block of the held bytes and those filled in. -/
theorem fillFrom_eq_blockOf (c : Context) {l : List Byte} (hfull : (occupancy c.len).val + l.length = 64) :
    fillFrom c.buf (occupancy c.len).val l = blockOf (c.heldBytes ++ l) := by
  rw [Context.heldBytes, ← take_fillFrom c.buf l (Nat.le_of_eq hfull), hfull, List.take_of_length_le (by simp),
    blockOf_toList]

/-- One byte more (R124): held, or the end of a block. -/
theorem absorbByte_holds {c : Context} {h : Hash} {stream : List Byte} (hc : c.Holds h stream) (d : Byte) :
    (c.absorbByte d).Holds h (stream ++ [d]) := by
  have hlt := (occupancy c.len).isLt
  have hlength := heldBytes_length c
  have hocc := occupancy_countByte c.len
  have hbuf : (c.absorbByte d).buf = fillFrom c.buf (occupancy c.len).val [d] := storeByte_eq_fillFrom _ _ _
  rw [Context.Holds]
  by_cases hfull : (occupancy c.len).val = 63
  · have hheld : (c.absorbByte d).heldBytes = [] :=
      heldBytes_of_occupancy (by rw [context_absorbByte_len, hocc, hfull])
    rw [absorbed_append_block hc (by rw [hlength, hfull]; rfl), context_absorbByte_h_of_eq d hfull, hbuf,
      fillFrom_eq_blockOf c (by rw [hfull]; rfl), hheld]
  · have hheld : (c.absorbByte d).heldBytes = c.heldBytes ++ [d] := by
      rw [Context.absorbByte, storeByte_eq_fillFrom]
      exact heldBytes_fillFrom c _ (by rw [hocc, List.length_singleton]; omega)
    rw [absorbed_append_short hc (by rw [hlength, List.length_singleton]; omega), context_absorbByte_h_of_ne d hfull,
      hheld]

theorem absorbBytes_holds {c : Context} {h : Hash} {stream : List Byte} (hc : c.Holds h stream) (l : List Byte) :
    (c.absorbBytes l).Holds h (stream ++ l) := by
  induction l generalizing c stream with
  | nil => rwa [List.append_nil]
  | cons d l ih =>
    rw [absorbBytes_cons, List.append_cons]
    exact ih (absorbByte_holds hc d)

/-! The document's chunk algorithm (R126). -/

/-- The full blocks that bypass the buffer, and the bytes left over. -/
theorem directBlocks_eq_absorbed {h k : Hash} {stream : List Byte} (n : Nat) (l : List Byte)
    (ha : absorbed h stream = (k, [])) (hn : l.length / 64 ≤ n) : directBlocks n l k = absorbed h (stream ++ l) := by
  induction n generalizing k stream l with
  | zero =>
    rw [absorbed_append_short ha (by rw [List.length_nil]; omega)]
    rfl
  | succ n ih =>
    rw [directBlocks]
    split
    case isTrue hblock =>
      have htake : (l.take 64).length = 64 := by rw [List.length_take]; omega
      have hfirst : absorbed h (stream ++ l.take 64) = (compress k (blockOf l), []) := by
        rw [absorbed_append_block ha (by rw [htake]; rfl), List.nil_append,
          ← blockOf_append (l.drop 64) (Nat.le_of_eq htake.symm), List.take_append_drop]
      rw [ih (l.drop 64) hfirst (by rw [List.length_drop]; omega), List.append_assoc, List.take_append_drop]
    case isFalse hshort => rw [absorbed_append_short ha (by rw [List.length_nil]; omega), List.nil_append]

theorem absorbChunk_of_short {c : Context} {data : List Byte} (h : (occupancy c.len).val + data.length < 64) :
    c.absorbChunk data =
      ⟨c.h, c.len + BitVec.ofNat 64 (8 * data.length), fillFrom c.buf (occupancy c.len).val data⟩ := by
  rw [Context.absorbChunk, if_neg (by omega)]

/-- A chunk that completes a block: the buffer filled up, the full blocks behind it, and what is left over. -/
theorem absorbChunk_of_full {c : Context} {data : List Byte} (h : 64 ≤ (occupancy c.len).val + data.length)
    {full : Block} {left : List Byte} {k : Hash}
    (hfull : fillFrom c.buf (occupancy c.len).val (data.take (64 - (occupancy c.len).val)) = full)
    (hdirect : directBlocks data.length (data.drop (64 - (occupancy c.len).val)) (compress c.h full) = (k, left)) :
    c.absorbChunk data = ⟨k, c.len + BitVec.ofNat 64 (8 * data.length), fillFrom full 0 left⟩ := by
  rw [Context.absorbChunk, if_pos (by omega)]
  simp only [hfull, hdirect]

theorem occupancy_absorbChunk (c : Context) (data : List Byte) :
    (occupancy (c.absorbChunk data).len).val = ((occupancy c.len).val + data.length) % 64 := by
  rw [absorbChunk_len, ← absorbBytes_len, occupancy_absorbBytes]

theorem absorbChunk_holds {c : Context} {h : Hash} {stream : List Byte} (hc : c.Holds h stream) (data : List Byte) :
    (c.absorbChunk data).Holds h (stream ++ data) := by
  have hlt := (occupancy c.len).isLt
  have hlength := heldBytes_length c
  have hocc := occupancy_absorbChunk c data
  rw [Context.Holds]
  by_cases hshort : (occupancy c.len).val + data.length < 64
  · rw [absorbed_append_short hc (by omega)]
    rw [absorbChunk_of_short hshort] at hocc ⊢
    rw [heldBytes_fillFrom c c.h (by rw [hocc, Nat.mod_eq_of_lt hshort])]
  · have hfill : (occupancy c.len).val + (data.take (64 - (occupancy c.len).val)).length = 64 := by
      rw [List.length_take]; omega
    have hblock := absorbed_append_block hc ((congrArg (· + _) hlength).trans hfill)
    rw [← fillFrom_eq_blockOf c hfill] at hblock
    have hdirect := directBlocks_eq_absorbed data.length (data.drop (64 - (occupancy c.len).val)) hblock
      (by rw [List.length_drop]; omega)
    rw [List.append_assoc, List.take_append_drop] at hdirect
    rcases ha : absorbed h (stream ++ data) with ⟨k, left⟩
    have hleft : left.length = (occupancy (c.absorbChunk data).len).val := by
      rw [absorbed_held_length ha, hocc, List.length_append, occupancy_of_holds hc]
      omega
    have hbuf := fun full : Block => take_fillFrom full (j := 0) left (by omega)
    rw [absorbChunk_of_full (by omega) rfl (hdirect.trans ha)] at hleft ⊢
    simp only [Context.heldBytes, ← hleft]
    simpa using (hbuf _).symm

/-! The chunk algorithm and the byte sequence agree (R127). -/

theorem agree_of_holds {c d : Context} {h : Hash} {stream : List Byte} (hc : c.Holds h stream) (hd : d.Holds h stream)
    (hlen : c.len = d.len) : c.Agree d := by
  obtain ⟨hh, hheld⟩ := Prod.mk_inj.mp (hc.symm.trans hd)
  refine ⟨hh, hlen, fun k hk => Option.some.inj ?_⟩
  rw [← heldBytes_getElem? c hk, ← heldBytes_getElem? d (hlen ▸ hk), hheld]

theorem absorbChunk_agree_absorbBytes (c : Context) (data : List Byte) :
    (c.absorbChunk data).Agree (c.absorbBytes data) :=
  agree_of_holds (absorbChunk_holds (holds_heldBytes c) data) (absorbBytes_holds (holds_heldBytes c) data)
    (by rw [absorbChunk_len, absorbBytes_len])

theorem agree_symm {c d : Context} (h : c.Agree d) : d.Agree c := by
  obtain ⟨hh, hlen, hbuf⟩ := h
  exact ⟨hh.symm, hlen.symm, fun k hk => (hbuf k (hlen ▸ hk)).symm⟩

theorem agree_trans {c d e : Context} (h : c.Agree d) (h' : d.Agree e) : c.Agree e := by
  obtain ⟨hh, hlen, hbuf⟩ := h
  obtain ⟨hh', hlen', hbuf'⟩ := h'
  exact ⟨hh.trans hh', hlen.trans hlen', fun k hk => (hbuf k hk).trans (hbuf' k (hlen ▸ hk))⟩

theorem absorbBytes_flatten_agree (c : Context) (chunks : List (List Byte)) :
    (c.absorbBytes chunks.flatten).Agree (chunks.foldl Context.absorbChunk c) := by
  induction chunks generalizing c with
  | nil => exact ⟨rfl, rfl, fun _ _ => rfl⟩
  | cons data chunks ih =>
    have hfirst := agree_symm (absorbChunk_agree_absorbBytes c data)
    rw [List.flatten_cons, absorbBytes_append, List.foldl_cons]
    exact agree_trans (agree_absorbBytes hfirst _) (ih _)

/-- Settles O41: one call and a list of chunks both agree with the bytes absorbed one after the other. -/
theorem chunkingMakesNoDifference : Obligations.ChunkingMakesNoDifference := fun c chunks =>
  agree_trans (absorbChunk_agree_absorbBytes c chunks.flatten) (absorbBytes_flatten_agree c chunks)

end Sys2Proof.Machine
end

section
/-!
PROOFS. FINAL and whole messages (42_finalize.md rules R140 to R145, R151; 41_streaming.md rules R127, R130): the
padding by its length and its zero fill, and runs of commands by the stream that their context has absorbed.
-/

namespace Sys2Proof.Machine

/-! The padding ends the first or the second block (R143, R145). -/

/-- The number of blocks that the held bytes and the padding make. -/
theorem occupancy_add_paddingBytes_length (len : Dword) : (occupancy len).val + (paddingBytes len).length =
    64 * (if (occupancy len).val ≤ 55 then 1 else 2) := by
  have hj := (occupancy len).isLt
  rw [paddingBytes_length, zeroCount]
  split <;> omega

/-- Settles O18: what FINAL leaves, and the held bytes where the padding fits behind them. -/
theorem finalInReadyAbsorbsThePadding : Obligations.FinalInReadyAbsorbsThePadding := by
  intro s hready
  obtain ⟨t, hexec, hctx, hphase, herr, hbusy, hfstep, hinputs⟩ := exec_final_of_ready hready
  have hvalid : t.dvalid = true := (dvalid_iff t).mpr ⟨hphase, hbusy⟩
  refine ⟨t, hexec, hctx, hphase, hvalid, readDigest_of_dvalid hvalid, herr, hbusy, hfstep, hinputs, fun hj k hk => ?_⟩
  have hbuf : t.buf = (s.ctx.absorbBytes (paddingBytes s.len)).buf := congrArg Context.buf hctx
  have hfit : (occupancy s.len).val + (paddingBytes s.len).length = 64 := by
    rw [occupancy_add_paddingBytes_length, if_pos hj]
  rw [hbuf]
  exact absorbBytes_buf_below s.ctx (paddingBytes s.len) hk (Nat.le_of_eq hfit)

/-- Settles O21: a context holds its held bytes, and after FINAL these with the padding behind them. -/
theorem finalRunsOneOrTwoCompressionSteps : Obligations.FinalRunsOneOrTwoCompressionSteps := by
  rintro s n hready rfl
  obtain ⟨t, hexec, hctx, -⟩ := exec_final_of_ready hready
  have hlength : (s.ctx.heldBytes ++ paddingBytes s.len).length =
      64 * (if (occupancy s.len).val ≤ 55 then 1 else 2) := by
    rw [List.length_append, heldBytes_length]
    exact occupancy_add_paddingBytes_length s.len
  obtain ⟨hh, -⟩ := absorbed_eq_iff.mp (absorbBytes_holds (holds_heldBytes s.ctx) (paddingBytes s.len))
  rw [hlength, Nat.mul_div_cancel_left _ (by decide)] at hh
  exact ⟨t, hexec, hlength, (congrArg Context.h hctx).trans hh.symm⟩

/-! The zero fill (R143). -/

/-- The marker, the zeros and the test bring the finalizer to length byte 0. -/
theorem finalizerSteps_fill (s : State) : State.finalizerSteps (1 + zeroCount (occupancy s.len).val + 1) s.capture =
    (s.capture.absorbBytes (0x80 :: List.replicate (zeroCount (occupancy s.len).val) 0x00)).atFStep (.lengthByte 0) := by
  obtain ⟨hz, hfill⟩ := zeroCount_fills (occupancy s.len).val
  generalize zeroCount (occupancy s.len).val = z at *
  have hmark : State.finalizerSteps 1 s.capture = (s.capture.absorbByte 0x80).atFStep .zeroFill :=
    finalizerStep_of_marker s.capture_fstep
  have hocc : ((occupancy ((s.capture.absorbByte 0x80).atFStep .zeroFill).len).val + z) % 64 = 56 := by
    rw [State.atFStep_len, absorbByte_len, occupancy_countByte, State.capture_len]
    omega
  rw [Nat.add_assoc, finalizerSteps_add, hmark, finalizerSteps_zeroFill z rfl hz hocc, absorbBytes_atFStep,
    State.atFStep_atFStep, State.absorbBytes_cons]

/-- Before the last zero the occupancy is not 56, since fewer than 64 zeros are absorbed. -/
theorem occupancy_marker_zeros_eq_iff (c : Context) {m : Nat} (hm : m ≤ zeroCount (occupancy c.len).val) :
    (occupancy (c.absorbBytes (0x80 :: List.replicate m 0x00)).len).val = 56 ↔
      m = zeroCount (occupancy c.len).val := by
  obtain ⟨hz, hfill⟩ := zeroCount_fills (occupancy c.len).val
  rw [occupancy_absorbBytes, List.length_cons, List.length_replicate]
  omega

/-- For a whole number of bytes the test of R140 is the test of R152 (C8). -/
theorem mod_512_eq_448_iff {len : Dword} (h : len.extractLsb' 0 3 = 0) :
    len.toNat % 512 = 448 ↔ (occupancy len).val = 56 := by
  rw [extractLsb'_zero_eq_zero_iff] at h
  rw [occupancy_val]
  omega

/-- Settles O19: the number of zeros by arithmetic, the finalizer by its steps, and the two tests. -/
theorem zeroFillStopsAtOccupancy56 : Obligations.ZeroFillStopsAtOccupancy56 := by
  refine ⟨?_, fun len => mod_512_eq_448_iff⟩
  rintro s z - rfl
  obtain ⟨hz, hfill⟩ := zeroCount_fills (occupancy s.len).val
  have hj := (occupancy s.len).isLt
  refine ⟨hz, by omega, ?_, ?_, fun m => occupancy_marker_zeros_eq_iff s.ctx, ?_⟩
  · rw [finalizerSteps_fill, State.atFStep_fstep]
  · rw [finalizerSteps_fill, State.atFStep_ctx, State.absorbBytes_ctx, State.capture_ctx]
  · split <;> omega

/-! Runs of commands (R61, R79, R80). -/

theorem execAll_append {l : List Instr} {s t : State} (h : execAll l s = .next t) (m : List Instr) :
    execAll (l ++ m) s = execAll m t := by
  induction l generalizing s with
  | nil => rw [← Host.Outcome.next.inj h, List.nil_append]
  | cons i l ih =>
    obtain ⟨u, hx⟩ := exists_executes i s
    rw [execAll_cons hx.answers] at h
    rw [List.cons_append, execAll_cons hx.answers, ih h]

/-- Commands executed one after the other lead from `s` to an open message with context `c`, without a reject. -/
structure OpensWith (cmds : List Instr) (s : State) (c : Context) (t : State) : Prop where
  answers : execAll cmds s = .next t
  ctx : t.ctx = c
  phase : t.phase = .ready
  err : t.err = s.err
  inputs : t.inputs = s.inputs

/-- One ABSB per byte absorbs the bytes. -/
theorem exists_opensWith_absb (data : List Byte) {s : State} (hs : s.phase = .ready) :
    ∃ t, OpensWith (data.map .absb) s (s.ctx.absorbBytes data) t := by
  induction data generalizing s with
  | nil => exact ⟨s, rfl, rfl, hs, rfl, rfl⟩
  | cons d data ih =>
    obtain ⟨u, hx⟩ := exists_executes (.absb d) s
    have hphase := hx.phase
    have hctx := hx.ctx
    have herr := hx.err
    rw [hs] at hphase hctx herr
    obtain ⟨t, ht⟩ := ih hphase
    refine ⟨t, ?_, ?_, ht.phase, ht.err.trans (herr.trans (Bool.or_false _)), ht.inputs.trans hx.inputs⟩
    · rw [List.map_cons, execAll_cons hx.answers, ht.answers]
    · rw [ht.ctx, hctx]
      rfl

theorem exists_opensWith_openCommands (m : List Byte) (s : State) :
    ∃ t, OpensWith (openCommands m) s (s.ctx.init.absorbBytes m) t := by
  obtain ⟨t, ht⟩ := exists_opensWith_absb m s.openMessage_phase
  exact ⟨t, (execAll_cons (exec_init s) _).trans ht.answers, ht.ctx, ht.phase, ht.err, ht.inputs⟩

/-- Settles O40: the run is one ABSB per byte, and the chunk algorithm agrees with the bytes. -/
theorem chunkAlgorithmEqualsItsBytes : Obligations.ChunkAlgorithmEqualsItsBytes := by
  intro s data rest hready hidle
  obtain ⟨t, ht⟩ := exists_opensWith_absb data (s := { s with inputs := rest }) hready
  have hrun := commandsRunInOrder (data.map .absb) s rest hidle
  rw [List.length_map, ht.answers] at hrun
  exact ⟨t, hrun, ht.ctx.symm ▸ absorbChunk_agree_absorbBytes s.ctx data, ht.phase, ht.err, ht.inputs⟩

/-! A message (R130, R151). -/

theorem absorbBytes_init_holds (c : Context) (m : List Byte) : (c.init.absorbBytes m).Holds iv m :=
  absorbBytes_holds (holds_init c) m

theorem absorbBytes_init_len (c : Context) (m : List Byte) :
    (c.init.absorbBytes m).len = BitVec.ofNat 64 (8 * m.length) := by
  rw [absorbBytes_len]
  exact BitVec.zero_add _

/-- Held byte `k` is the byte of the stream that stands `k` behind its last whole block. -/
theorem getElem?_of_holds {c : Context} {h : Hash} {stream : List Byte} (hc : c.Holds h stream) {k : Fin 64}
    (hk : k.val < stream.length % 64) : stream[stream.length - stream.length % 64 + k.val]? = some c.buf[k] := by
  have hin : k < occupancy c.len := Fin.lt_def.mpr (by rwa [occupancy_of_holds hc])
  have hpos : stream.length - stream.length % 64 = 64 * (stream.length / 64) := by omega
  obtain ⟨-, hheld⟩ := absorbed_eq_iff.mp hc
  rw [← heldBytes_getElem? c hin, ← hheld, List.getElem?_drop, hpos]

/-- Settles O43: the context after the run holds the message. -/
theorem openMessageStateIsDetermined : Obligations.OpenMessageStateIsDetermined := by
  intro s m rest hidle hm
  obtain ⟨t, ht⟩ := exists_opensWith_openCommands m { s with inputs := rest }
  have hrun := commandsRunInOrder (openCommands m) s rest hidle
  have hcount : (openCommands m).length = m.length + 1 := by rw [openCommands, List.length_cons, List.length_map]
  rw [hcount, ht.answers] at hrun
  have hholds : t.ctx.Holds iv m := ht.ctx ▸ absorbBytes_init_holds _ m
  have hlen : t.len = BitVec.ofNat 64 (8 * m.length) := (congrArg Context.len ht.ctx).trans (absorbBytes_init_len _ m)
  refine ⟨t, hrun, ?_, occupancy_of_holds hholds, fun k => getElem?_of_holds hholds, ?_, ht.phase, ht.err, ht.inputs⟩
  · rw [hlen, BitVec.toNat_ofNat, Nat.mod_eq_of_lt (by omega)]
  · exact (absorbed_eq_iff.mp hholds).1.symm

theorem zeroCount_mod (n : Nat) : zeroCount (n % 64) = zeroCount n := by
  rw [zeroCount, zeroCount, Nat.mod_mod]

theorem occupancy_ofNat_bits (n : Nat) : (occupancy (BitVec.ofNat 64 (8 * n))).val = n % 64 := by
  rw [occupancy_val, BitVec.toNat_ofNat]
  omega

/-- A message with FINAL's padding behind it is the padded message (R151). -/
theorem append_paddingBytes (m : List Byte) :
    m ++ paddingBytes (BitVec.ofNat 64 (8 * m.length)) = paddedMessage m := by
  rw [paddedMessage, paddingBytes, occupancy_ofNat_bits, zeroCount_mod]

theorem paddedMessage_length (m : List Byte) :
    (paddedMessage m).length = m.length + 1 + zeroCount m.length + 8 := by
  simp [paddedMessage]
  omega

theorem messageCommands_eq (m : List Byte) : messageCommands m = openCommands m ++ [.final] := rfl

/-- INIT, the bytes of a message and FINAL, executed one after the other, leave the hash of the padded message. -/
theorem execAll_messageCommands (m : List Byte) (s : State) :
    ∃ t, execAll (messageCommands m) s = .next t ∧ t.h = sha1 m ∧ t.phase = .finalized ∧ t.busy = false ∧
      t.err = s.err ∧ t.inputs = s.inputs := by
  obtain ⟨u, hu⟩ := exists_opensWith_openCommands m s
  obtain ⟨t, hexec, hctx, hphase, herr, hbusy, -, hinputs⟩ := exec_final_of_ready hu.phase
  refine ⟨t, ?_, ?_, hphase, hbusy, herr.trans hu.err, hinputs.trans hu.inputs⟩
  · rw [messageCommands_eq, execAll_append hu.answers, execAll_cons hexec]
    rfl
  · have hlen : u.len = BitVec.ofNat 64 (8 * m.length) :=
      (congrArg Context.len hu.ctx).trans (absorbBytes_init_len _ m)
    have hholds : t.ctx.Holds iv (paddedMessage m) := by
      rw [hctx, hu.ctx, hlen, ← append_paddingBytes]
      exact absorbBytes_holds (absorbBytes_init_holds _ m) _
    exact (absorbed_eq_iff.mp hholds).1.symm

/-- Settles O44: the padded message by its length, and the run by the hash it leaves. -/
theorem messageDigestIsTheClosedForm : Obligations.MessageDigestIsTheClosedForm := by
  intro s m rest hidle _
  obtain ⟨hz, hfill⟩ := zeroCount_fills m.length
  refine ⟨⟨zeroCount m.length, by omega, by omega, rfl, paddedMessage_length m, by omega⟩, ?_⟩
  obtain ⟨t, hexec, hh, hphase, hbusy, herr, hinputs⟩ := execAll_messageCommands m { s with inputs := rest }
  have hrun := commandsRunInOrder (messageCommands m) s rest hidle
  have hcount : (messageCommands m).length = m.length + 2 := by simp [messageCommands]
  rw [hcount, hexec] at hrun
  have hread := readDigest_of_dvalid ((dvalid_iff t).mpr ⟨hphase, hbusy⟩)
  exact ⟨t, hrun, hh, hphase, by rw [hread, hh], herr, hinputs⟩

end Sys2Proof.Machine
end

section
/-!
PROOFS. Listings (30_encoding.md rules R78 to R81): a listing of one item, the words of a chunk, and which
operands are out of range; HASH is INIT, the chunk and FINAL.
-/

namespace Sys2Proof.Machine

/-! Listings, item by item. -/

theorem assemble_cons (i : AsmItem) (l : List AsmItem) :
    assemble (i :: l) = if i.wellFormed then (assemble l).map (i.emit ++ ·) else none := rfl

theorem assemble_singleton (i : AsmItem) : assemble [i] = if i.wellFormed then some i.emit else none := by
  rw [assemble_cons, assemble, Option.map_some, List.append_nil]

theorem assemble_of_wellFormed (i : AsmItem) (h : i.wellFormed = true) : assemble [i] = some i.emit := by
  rw [assemble_singleton, if_pos h]

theorem assemble_of_not_wellFormed (i : AsmItem) (h : i.wellFormed = false) : assemble [i] = none := by
  rw [assemble_singleton, if_neg (by simp [h])]

/-- A listing emits its items one after the other, and is an error when one of them is. -/
theorem assemble_append (l m : List AsmItem) :
    assemble (l ++ m) = (assemble l).bind fun a => (assemble m).map fun b => a ++ b := by
  induction l with
  | nil => simp [assemble]
  | cons i l ih =>
    rw [List.cons_append, assemble_cons, assemble_cons, ih]
    split
    · cases assemble l with
      | none => rfl
      | some a => cases assemble m <;> simp
    · rfl

/-- An item between INIT and FINAL (R80). -/
theorem assemble_init_item_final (i : AsmItem) : assemble [.init, i, .final] =
    if i.wellFormed then some (AsmItem.init.emit ++ (i.emit ++ AsmItem.final.emit)) else none := by
  have hinit : AsmItem.init.wellFormed = true := rfl
  rw [assemble_cons, if_pos hinit, assemble_cons, assemble_of_wellFormed .final rfl]
  split <;> rfl

/-! The words of a chunk (R78, R79). -/

/-- `ABSB n` is the word `0x100 + n`. -/
theorem absbWord_eq {n : Nat} (h : n ≤ 255) : absbWord n = BitVec.ofNat 10 (0x100 + n) := by
  apply BitVec.eq_of_toNat_eq
  have hop : (0b01#2).toNat = 1 := rfl
  rw [absbWord, encode, toNat_append_byte, hop, BitVec.toNat_ofNat, BitVec.toNat_ofNat]
  omega

theorem absbWord_toNat (d : Byte) : absbWord d.toNat = encode (.absb d) := by
  rw [absbWord, BitVec.ofNat_toNat, BitVec.setWidth_eq]

theorem chunkWords_accept {l : List Nat} (h : ∀ b ∈ l, b ≤ 255) :
    (chunkWords l).map BusEvent.accept = l.map fun b => .accept (BitVec.ofNat 10 (0x100 + b)) := by
  rw [chunkWords, List.map_map]
  exact List.map_congr_left fun b hb => congrArg BusEvent.accept (absbWord_eq (h b hb))

/-- HASH is INIT, the words of the chunk and FINAL (R80). -/
theorem hashWords_accept (l : List Nat) : (hashWords l).map BusEvent.accept =
    AsmItem.init.emit ++ ((chunkWords l).map .accept ++ AsmItem.final.emit) := by
  rw [hashWords, List.map_cons, List.map_append]
  rfl

/-! Operands in range and out of it (R78, R79; log entry 8). -/

theorem all_byteOperand_iff (l : List Nat) : l.all byteOperand = true ↔ ∀ b ∈ l, b ≤ 255 := by
  simp [byteOperand]

theorem all_textChar_iff (t : List Char) :
    t.all textChar = true ↔ ∀ c ∈ t, 32 ≤ c.toNat ∧ c.toNat ≤ 126 ∧ c.toNat ≠ 34 := by
  simp [textChar]

theorem not_all_byteOperand {l : List Nat} (h : ∃ b ∈ l, 255 < b) : l.all byteOperand = false := by
  obtain ⟨b, hb, hout⟩ := h
  rw [Bool.eq_false_iff, ne_eq, all_byteOperand_iff]
  intro hall
  have hin := hall b hb
  omega

theorem not_all_textChar {t : List Char} (h : ∃ c ∈ t, c.toNat < 32 ∨ 126 < c.toNat) : t.all textChar = false := by
  obtain ⟨c, hc, hout⟩ := h
  rw [Bool.eq_false_iff, ne_eq, all_textChar_iff]
  intro hall
  obtain ⟨hlow, hhigh, -⟩ := hall c hc
  omega

/-! One item after the other. -/

theorem assemble_absb (n : Nat) :
    assemble [.absb n] = if n ≤ 255 then some [.accept (BitVec.ofNat 10 (0x100 + n))] else none := by
  by_cases h : n ≤ 255
  · rw [assemble_of_wellFormed (.absb n) (decide_eq_true h), if_pos h, AsmItem.emit, absbWord_eq h]
  · rw [assemble_of_not_wellFormed (.absb n) (decide_eq_false h), if_neg h]

theorem assemble_word (w : Nat) :
    assemble [.word w] = if w ≤ 1023 then some [.accept (BitVec.ofNat 10 w)] else none := by
  rw [assemble_singleton, AsmItem.wellFormed, AsmItem.emit]
  simp only [decide_eq_true_eq]

theorem assemble_absorbBytes {l : List Nat} (h : ∀ b ∈ l, b ≤ 255) :
    assemble [.absorbBytes l] = some (l.map fun b => .accept (BitVec.ofNat 10 (0x100 + b))) := by
  rw [assemble_of_wellFormed (.absorbBytes l) ((all_byteOperand_iff l).mpr h), AsmItem.emit, chunkWords_accept h]

theorem assemble_absorbText {t : List Char} (h : ∀ c ∈ t, 32 ≤ c.toNat ∧ c.toNat ≤ 126 ∧ c.toNat ≠ 34) :
    assemble [.absorbText t] = some (t.map fun c => .accept (BitVec.ofNat 10 (0x100 + c.toNat))) := by
  have hcodes : ∀ b ∈ t.map Char.toNat, b ≤ 255 := by
    intro b hb
    obtain ⟨c, hc, rfl⟩ := List.mem_map.mp hb
    obtain ⟨-, hhigh, -⟩ := h c hc
    omega
  rw [assemble_of_wellFormed (.absorbText t) ((all_textChar_iff t).mpr h), AsmItem.emit, chunkWords_accept hcodes,
    List.map_map]
  rfl

theorem assemble_absorbTimes (b n : Nat) : assemble [.absorbTimes b n] =
    if b ≤ 255 then some (List.replicate n (.accept (BitVec.ofNat 10 (0x100 + b)))) else none := by
  by_cases h : b ≤ 255
  · have hall : ∀ b' ∈ List.replicate n b, b' ≤ 255 := fun b' hb' => (List.eq_of_mem_replicate hb').symm ▸ h
    rw [assemble_of_wellFormed (.absorbTimes b n) (decide_eq_true h), if_pos h, AsmItem.emit, chunkWords_accept hall,
      List.map_replicate]
  · rw [assemble_of_not_wellFormed (.absorbTimes b n) (decide_eq_false h), if_neg h]

/-- HASH of bytes has the words and the errors of INIT, ABSORB, FINAL. -/
theorem assemble_hashBytes (l : List Nat) : assemble [.hashBytes l] = assemble [.init, .absorbBytes l, .final] := by
  have hemit : (AsmItem.hashBytes l).emit = _ := hashWords_accept l
  rw [assemble_singleton, assemble_init_item_final, hemit]
  rfl

theorem assemble_hashText (t : List Char) : assemble [.hashText t] = assemble [.init, .absorbText t, .final] := by
  have hemit : (AsmItem.hashText t).emit = _ := hashWords_accept (t.map Char.toNat)
  rw [assemble_singleton, assemble_init_item_final, hemit]
  rfl

/-- HASH of a message's bytes is the commands of the whole message. -/
theorem assemble_hashBytes_message (m : List Byte) : assemble [.hashBytes (m.map BitVec.toNat)] =
    some ((messageCommands m).map fun i => .accept (encode i)) := by
  have hbytes : (AsmItem.hashBytes (m.map BitVec.toNat)).wellFormed = true := by
    refine (all_byteOperand_iff _).mpr fun b hb => ?_
    obtain ⟨d, -, rfl⟩ := List.mem_map.mp hb
    exact Nat.le_of_lt_succ d.isLt
  rw [assemble_of_wellFormed _ hbytes, AsmItem.emit]
  simp [hashWords, chunkWords, messageCommands, absbWord_toNat]

/-- Settles O46: each item by its own lemma, and the listing by its items. -/
theorem listingEmitsTheCommands : Obligations.ListingEmitsTheCommands :=
  ⟨rfl, rfl, assemble_absb, assemble_word, fun l h => ⟨assemble_absorbBytes h, assemble_hashBytes l⟩,
    fun _ h => ⟨assemble_of_not_wellFormed _ (not_all_byteOperand h),
      assemble_of_not_wellFormed _ (not_all_byteOperand h)⟩,
    fun t h => ⟨assemble_absorbText h, assemble_hashText t⟩,
    fun _ h => ⟨assemble_of_not_wellFormed _ (not_all_textChar h), assemble_of_not_wellFormed _ (not_all_textChar h)⟩,
    assemble_absorbTimes, rfl, rfl, fun _ => rfl, rfl, assemble_append, assemble_hashBytes_message⟩

end Sys2Proof.Machine
end
